-- ==== Sys2Proof/Word.lean ====
section
/-! DEFINITION. The word types: a byte is a memory cell or an 8-bit register (00_scope.md R5), an address is 16 bits. -/

namespace Sys2Proof

/-- An 8-bit unsigned value: a memory cell, a register, an opcode, an operand byte (00_scope.md R5, R7). -/
abbrev Byte := BitVec 8

/-- A 16-bit unsigned value: a memory address, the program counter, a 16-bit operand (00_scope.md R5, R7). -/
abbrev Addr := BitVec 16

end Sys2Proof
end

