-- ==== Sys2Proof/Config.lean ====
section
/-! DEFINITION. What the spec fixes per implementation: the open parameters of 00_scope.md R6, and the defaults that
92_eei_decisions.md decides for them; Machine/Params.lean says which values the machine takes. No value of this hardware is
left free, so this file holds no free value. -/

namespace Sys2Proof

/-- `UNASSIGNED_POLICY` (00_scope.md R6): what a step does that fetches an opcode byte outside the 16 assigned ones. -/
inductive UnassignedPolicy where
  /-- Latch FAULT and end the run (60_exceptions.md R103). -/
  | fault
  /-- A one-cycle no-operation (60_exceptions.md R104). -/
  | nop
  deriving DecidableEq, Repr

/-- `PAGE_CROSS_RULE` (00_scope.md R6): when an absolute-indexed access pays the extra cycle. -/
inductive PageCrossRule where
  /-- The high byte of the effective address differs from the base's (41_addressing_modes.md R82). -/
  | differs
  /-- The high byte of the effective address is not zero (41_addressing_modes.md R82). -/
  | nonzero
  deriving DecidableEq, Repr

/-- `PS_BIT_C` to `PS_BIT_V` (00_scope.md R6): where the six flags lie that no instruction writes. -/
structure PsLayout where
  carry : Nat
  irqDisable : Nat
  decimalMode : Nat
  brk : Nat
  unused : Nat
  overflow : Nat
  deriving DecidableEq, Repr

/-- The policy parameters a step depends on (40_fetch_execute.md R68: "and of the two policy parameters"). -/
structure Params where
  unassigned : UnassignedPolicy
  pageCross : PageCrossRule
  deriving DecidableEq, Repr

/-- The defaults the spec decides (92_eei_decisions.md D2 and D4, 90_conflicts.md C2). -/
def Config.defaultParams : Params := { unassigned := .fault, pageCross := .differs }

/-- The MOS 6502's layout, as 10_state.md R17 takes it: bits 0, 2, 3, 4, 5, 6. -/
def Config.mos6502Layout : PsLayout :=
  { carry := 0, irqDisable := 2, decimalMode := 3, brk := 4, unused := 5, overflow := 6 }

/-- What an address that memory does not list reads as: the reset contents of every cell (10_state.md R25; log 8). -/
def Config.unlistedByte : Byte := 0x00

end Sys2Proof
end

