-- ==== Sys2Proof/Machine/Params.lean ====
section
/-! DEFINITION. The values this machine takes for the open parameters of 00_scope.md R6. -/

namespace Sys2Proof.Machine

/-- DESIGN CHOICE (logs 1 and 2): both policy parameters at the spec's defaults. -/
def params : Params := Config.defaultParams

/-- PRESUMED (log 3): the six flags the document does not number lie where the MOS 6502 has them. -/
def psLayout : PsLayout := Config.mos6502Layout

end Sys2Proof.Machine
end

