-- ==== Sys2Proof/Machine/Bits.lean ====
section
/-! DEFINITION. Bit fields and byte order: low and high byte, joining, zero extension, setting one bit, the PS layout's
validity and the reset value of PS. -/

namespace Sys2Proof.Machine

/-- `a[7:0]`, the low byte of an address (00_scope.md R7). -/
def lowByte (a : Addr) : Byte := a.setWidth 8

/-- `a[15:8]`, the high byte of an address (00_scope.md R7). -/
def highByte (a : Addr) : Byte := (a >>> 8).setWidth 8

/-- `hi:lo = hi * 256 + lo` (00_scope.md R7, 20_memory.md R37: the byte at the lower address is the low byte). -/
def joinBytes (lo hi : Byte) : Addr := hi ++ lo

/-- `zext_16(v)` (00_scope.md R8). -/
def zext16 (v : Byte) : Addr := v.setWidth 16

/-- `PS[k] <- b`: write one bit and leave the other seven as they were (00_scope.md R8). -/
def setBit (ps : Byte) (k : Nat) (b : Bool) : Byte :=
  if b then ps ||| (1#8 <<< k) else ps &&& ~~~(1#8 <<< k)

/-- The constraint 92_eei_decisions.md D3 puts on any choice of the six positions: distinct, out of 0, 2, 3, 4, 5, 6. -/
def psLayoutValid (l : PsLayout) : Bool :=
  let ps := [l.carry, l.irqDisable, l.decimalMode, l.brk, l.unused, l.overflow]
  ps.all (fun p => [0, 2, 3, 4, 5, 6].contains p) && decide ps.Nodup

/-- `UNUSED | IRQ_DISABLE`, the reset value of PS (10_state.md R25), for any placing of the two flags. -/
def psReset (l : PsLayout) : Byte := (1#8 <<< l.unused) ||| (1#8 <<< l.irqDisable)

end Sys2Proof.Machine
end

