-- ==== Sys2Proof/Syntax.lean ====
section
/-! DEFINITION. The instructions (30_encoding.md R54), one constructor per row of spec/opcode_table.json, and the
descriptor (destination, addressing mode) that the spec's Decode answers (30_encoding.md R62). -/

namespace Sys2Proof

/-- A destination register `d` of a load (30_encoding.md R62). -/
inductive Dest where
  | a
  | x
  | y
  deriving DecidableEq, Repr

/-- An index register `i` (30_encoding.md R62). -/
inductive Index where
  | x
  | y
  deriving DecidableEq, Repr

/-- The five addressing modes, an index present only for the indexed two (30_encoding.md R62). -/
inductive Mode where
  /-- IMM: the operand byte is the data. -/
  | imm
  /-- ZP: the operand byte is a zero-page address. -/
  | zp
  /-- ZPI, that is ZPX or ZPY: zero page indexed. -/
  | zpi (i : Index)
  /-- ABS: the two operand bytes are an address. -/
  | abs
  /-- ABSI, that is ABSX or ABSY: absolute indexed. -/
  | absi (i : Index)
  deriving DecidableEq, Repr

/-- What one opcode selects: destination and addressing mode with its index (30_encoding.md R50, R62). -/
structure Form where
  dest : Dest
  mode : Mode
  deriving DecidableEq, Repr

/-- The answer of the spec's `Decode` (30_encoding.md R62). -/
inductive Opcode where
  | assigned (f : Form)
  | unassigned (b : Byte)
  deriving DecidableEq, Repr

/-- The 16 instructions with their operands (30_encoding.md R54; operands assembled as R53 says). -/
inductive Instr where
  /-- LDA #imm, 0xA9 (42_lda.md R86). -/
  | ldaImm (imm : Byte)
  /-- LDA zp, 0xA5 (42_lda.md R87). -/
  | ldaZp (zp : Byte)
  /-- LDA zp,X, 0xB5 (42_lda.md R88). -/
  | ldaZpX (base : Byte)
  /-- LDA abs, 0xAD (42_lda.md R89). -/
  | ldaAbs (addr : Addr)
  /-- LDA abs,X, 0xBD (42_lda.md R90). -/
  | ldaAbsX (base : Addr)
  /-- LDA abs,Y, 0xB9 (42_lda.md R91). -/
  | ldaAbsY (base : Addr)
  /-- LDX #imm, 0xA2 (43_ldx.md R92). -/
  | ldxImm (imm : Byte)
  /-- LDX zp, 0xA6 (43_ldx.md R93). -/
  | ldxZp (zp : Byte)
  /-- LDX zp,Y, 0xB6 (43_ldx.md R94). -/
  | ldxZpY (base : Byte)
  /-- LDX abs, 0xAE (43_ldx.md R95). -/
  | ldxAbs (addr : Addr)
  /-- LDX abs,Y, 0xBE (43_ldx.md R96). -/
  | ldxAbsY (base : Addr)
  /-- LDY #imm, 0xA0 (44_ldy.md R97). -/
  | ldyImm (imm : Byte)
  /-- LDY zp, 0xA4 (44_ldy.md R98). -/
  | ldyZp (zp : Byte)
  /-- LDY zp,X, 0xB4 (44_ldy.md R99). -/
  | ldyZpX (base : Byte)
  /-- LDY abs, 0xAC (44_ldy.md R100). -/
  | ldyAbs (addr : Addr)
  /-- LDY abs,X, 0xBC (44_ldy.md R101). -/
  | ldyAbsX (base : Addr)
  deriving DecidableEq, Repr

end Sys2Proof
end

