-- ==== Sys2Proof/Machine/Forms.lean ====
section
/-! DEFINITION. The form (destination, mode, index) of each instruction, and the length of each mode. -/

namespace Sys2Proof.Machine

/-- The columns "destination d", "format" and "index i" of 30_encoding.md R54, by instruction. -/
def formOf (i : Instr) : Form :=
  match i with
  | .ldaImm _ => ⟨.a, .imm⟩
  | .ldaZp _ => ⟨.a, .zp⟩
  | .ldaZpX _ => ⟨.a, .zpi .x⟩
  | .ldaAbs _ => ⟨.a, .abs⟩
  | .ldaAbsX _ => ⟨.a, .absi .x⟩
  | .ldaAbsY _ => ⟨.a, .absi .y⟩
  | .ldxImm _ => ⟨.x, .imm⟩
  | .ldxZp _ => ⟨.x, .zp⟩
  | .ldxZpY _ => ⟨.x, .zpi .y⟩
  | .ldxAbs _ => ⟨.x, .abs⟩
  | .ldxAbsY _ => ⟨.x, .absi .y⟩
  | .ldyImm _ => ⟨.y, .imm⟩
  | .ldyZp _ => ⟨.y, .zp⟩
  | .ldyZpX _ => ⟨.y, .zpi .x⟩
  | .ldyAbs _ => ⟨.y, .abs⟩
  | .ldyAbsX _ => ⟨.y, .absi .x⟩

/-- The length in bytes of an instruction of a mode, the opcode counted (30_encoding.md R52). -/
def modeLength (m : Mode) : Nat :=
  match m with
  | .imm => 2
  | .zp => 2
  | .zpi _ => 2
  | .abs => 3
  | .absi _ => 3

/-- The length in bytes of an instruction (30_encoding.md R52). -/
def instrLength (i : Instr) : Nat := modeLength (formOf i).mode

end Sys2Proof.Machine
end

