-- ==== Sys2Proof/WellFormed.lean ====
section
/-! DEFINITION. Which forms are instructions. Operand bytes have no illegal values (30_encoding.md R58) and their types
hold exactly the legal ones, so the one check is that a destination and a mode go together: there is no LDA zp,Y, no
LDX zp,X, no LDX abs,X, no LDY zp,Y and no LDY abs,Y (30_encoding.md R54, 43_ldx.md, 44_ldy.md). -/

namespace Sys2Proof

/-- The 16 combinations of destination, mode and index that 30_encoding.md R54 lists, out of 21. -/
def Form.wellFormed (f : Form) : Bool :=
  match f.dest, f.mode with
  | _, .imm => true
  | _, .zp => true
  | _, .abs => true
  | .a, .zpi .x => true
  | .a, .zpi .y => false
  | .a, .absi _ => true
  | .x, .zpi .y => true
  | .x, .zpi .x => false
  | .x, .absi .y => true
  | .x, .absi .x => false
  | .y, .zpi .x => true
  | .y, .zpi .y => false
  | .y, .absi .x => true
  | .y, .absi .y => false

/-- An instruction is well formed when its form is one of the table's (30_encoding.md R54). -/
def Instr.wellFormed (i : Instr) : Bool := (Machine.formOf i).wellFormed

end Sys2Proof
end

