-- ==== Sys2Proof/Decode.lean ====
section
/-! DEFINITION. The opcode map, the decoder (total on any bytes, rejecting by name) and the encoder. -/

namespace Sys2Proof

/-- How the operand is made from the bytes after the opcode: one byte, or two joined low byte first (30_encoding.md R53). -/
inductive Operand where
  | byte (mk : Byte → Instr)
  | word (mk : Addr → Instr)

/-- One row of 30_encoding.md R54: the opcode byte (all eight bits select it), the form, the instruction it makes. -/
structure OpcodeRow where
  opcode : Byte
  form : Form
  operand : Operand

/-- 30_encoding.md R54, row by row and in its order. -/
def opcodeTable : List OpcodeRow :=
  [ ⟨0xA9, ⟨.a, .imm⟩, .byte .ldaImm⟩,
    ⟨0xA5, ⟨.a, .zp⟩, .byte .ldaZp⟩,
    ⟨0xB5, ⟨.a, .zpi .x⟩, .byte .ldaZpX⟩,
    ⟨0xAD, ⟨.a, .abs⟩, .word .ldaAbs⟩,
    ⟨0xBD, ⟨.a, .absi .x⟩, .word .ldaAbsX⟩,
    ⟨0xB9, ⟨.a, .absi .y⟩, .word .ldaAbsY⟩,
    ⟨0xA2, ⟨.x, .imm⟩, .byte .ldxImm⟩,
    ⟨0xA6, ⟨.x, .zp⟩, .byte .ldxZp⟩,
    ⟨0xB6, ⟨.x, .zpi .y⟩, .byte .ldxZpY⟩,
    ⟨0xAE, ⟨.x, .abs⟩, .word .ldxAbs⟩,
    ⟨0xBE, ⟨.x, .absi .y⟩, .word .ldxAbsY⟩,
    ⟨0xA0, ⟨.y, .imm⟩, .byte .ldyImm⟩,
    ⟨0xA4, ⟨.y, .zp⟩, .byte .ldyZp⟩,
    ⟨0xB4, ⟨.y, .zpi .x⟩, .byte .ldyZpX⟩,
    ⟨0xAC, ⟨.y, .abs⟩, .word .ldyAbs⟩,
    ⟨0xBC, ⟨.y, .absi .x⟩, .word .ldyAbsX⟩ ]

/-- The row an opcode byte selects, if any: exact match of the whole byte (30_encoding.md R54, R56). -/
def findRow (b : Byte) : Option OpcodeRow := opcodeTable.find? (fun r => r.opcode == b)

/-- The spec's `Decode` (30_encoding.md R62): total on all 256 bytes; "invalid" is an answer, not a failure. -/
def decodeOpcode (b : Byte) : Opcode :=
  match findRow b with
  | some r => .assigned r.form
  | none => .unassigned b

/-- The instruction in three consecutive bytes, of which it uses its own length; `none` for an unassigned opcode. -/
def decode3 (b0 b1 b2 : Byte) : Option Instr :=
  match findRow b0 with
  | some r =>
    match r.operand with
    | .byte mk => some (mk b1)
    | .word mk => some (mk (Machine.joinBytes b1 b2))
  | none => none

/-- What the decoder answers on a list of bytes. -/
inductive Decoded where
  /-- An instruction, and the bytes after it. -/
  | instr (i : Instr) (rest : List Byte)
  /-- The first byte is one of the 240 unassigned opcodes (30_encoding.md R57); only it is consumed (R52). -/
  | unassigned (b : Byte)
  /-- The bytes end before the instruction does. The machine's own fetch never meets this: memory has no end. -/
  | truncated
  deriving DecidableEq, Repr

/-- Decode the instruction at the head of a list of bytes, in increasing address order (30_encoding.md R50). -/
def decode (bs : List Byte) : Decoded :=
  match bs with
  | [] => .truncated
  | b0 :: operands =>
    match findRow b0 with
    | none => .unassigned b0
    | some r =>
      match r.operand, operands with
      | .byte mk, b1 :: rest => .instr (mk b1) rest
      | .word mk, b1 :: b2 :: rest => .instr (mk (Machine.joinBytes b1 b2)) rest
      | _, _ => .truncated

/-- The bytes of an instruction, in increasing address order (30_encoding.md R50, R51, R54): written out from the
opcode values, not from `opcodeTable`, so that decoding an encoding checks one against the other. -/
def encode (i : Instr) : List Byte :=
  match i with
  | .ldaImm v => [0xA9, v]
  | .ldaZp z => [0xA5, z]
  | .ldaZpX z => [0xB5, z]
  | .ldaAbs w => [0xAD, Machine.lowByte w, Machine.highByte w]
  | .ldaAbsX w => [0xBD, Machine.lowByte w, Machine.highByte w]
  | .ldaAbsY w => [0xB9, Machine.lowByte w, Machine.highByte w]
  | .ldxImm v => [0xA2, v]
  | .ldxZp z => [0xA6, z]
  | .ldxZpY z => [0xB6, z]
  | .ldxAbs w => [0xAE, Machine.lowByte w, Machine.highByte w]
  | .ldxAbsY w => [0xBE, Machine.lowByte w, Machine.highByte w]
  | .ldyImm v => [0xA0, v]
  | .ldyZp z => [0xA4, z]
  | .ldyZpX z => [0xB4, z]
  | .ldyAbs w => [0xAC, Machine.lowByte w, Machine.highByte w]
  | .ldyAbsX w => [0xBC, Machine.lowByte w, Machine.highByte w]

/-- Byte `k` of an instruction given as a number whose low `nbits` bits are the instruction's, byte 0 lowest; the bits
above `nbits` are zero. -/
def tableByte (nbits w k : Nat) : Byte := BitVec.ofNat 8 ((w % 2 ^ nbits) / 256 ^ k)

/-- The instruction in a word numbered as spec/opcode_table.json numbers it (its byte B0 is bits 7..0). -/
def decodeTableWord (nbits w : Nat) : Option Instr :=
  match decode [tableByte nbits w 0, tableByte nbits w 1, tableByte nbits w 2] with
  | .instr i _ => some i
  | .unassigned _ => none
  | .truncated => none

end Sys2Proof
end

