-- ==== Sys2Proof/Machine/State.lean ====
section
/-! DEFINITION. The complete state of the block (10_state.md R10), the reasons a step or a host operation stops, and the
state after reset. -/

namespace Sys2Proof.Machine

/-- FAULT, the fault latch (10_state.md R21). -/
inductive FaultLatch where
  | none
  /-- The unassigned opcode byte that was fetched, and the address it was fetched from. -/
  | illegalOpcode (op : Byte) (addr : Addr)
  deriving DecidableEq, Repr

/-- MEM (10_state.md R23), as the cells that differ from `Config.unlistedByte`, by strictly rising address (log 8). -/
abbrev Memory := List Host.Cell

/-- The nine elements of 10_state.md R10 and nothing else. -/
structure State where
  /-- `pc`, the program counter (10_state.md R14). -/
  pc : Addr
  /-- `x[SP]`, the stack pointer: storage only (10_state.md R13). -/
  sp : Byte
  /-- `x[A]`, the accumulator (10_state.md R11). -/
  a : Byte
  /-- `x[X]`, index register X (10_state.md R11). -/
  x : Byte
  /-- `x[Y]`, index register Y (10_state.md R11). -/
  y : Byte
  /-- `PS`, the processor status register (10_state.md R16, R17). -/
  ps : Byte
  /-- `CYC`, the signed remaining-cycle counter (10_state.md R20; unbounded: log 4). -/
  cyc : Int
  /-- `FAULT`, the fault latch (10_state.md R21). -/
  fault : FaultLatch
  /-- `MEM[0..65535]` (10_state.md R23). -/
  mem : Memory
  deriving DecidableEq, Repr

/-- Why a run is no normal end. A step never answers a fault: every operation of the block is total
(60_exceptions.md R102), and IllegalOpcode is a next state, the latch written. -/
inductive Fault where
  /-- Raised by `Sys2Proof.Safety.verdict` alone (log 12), for a run that ended with FAULT set: its final state is not a normal
  one (40_fetch_execute.md R75, 60_exceptions.md R107). Safe: it lets fewer runs count as ended normally. -/
  | illegalOpcode (op : Byte) (addr : Addr)
  deriving DecidableEq, Repr

/-- Why an operation is refused. -/
inductive Refusal where
  /-- An instruction without a meaning, refused by `exec`'s arm. Nothing raises it: every instruction has its meaning. Safe. -/
  | notModelled (mnemonic : String)
  /-- Raised by `hostOp` alone: the host has no operation while the engine runs (70_reset_and_hazards.md R121,
  93_implementation_defined.md U7: refuse). Safe: it forbids only what the spec gives no transition for. -/
  | hostWhileRunning
  deriving DecidableEq, Repr

/-- The state after reset (10_state.md R25, 70_reset_and_hazards.md R114). PS is UNUSED | IRQ_DISABLE at the layout's
positions (log 3); CYC = 0 and FAULT = none are the spec's own decisions D6 and D12 (log 14). -/
def State.reset : State :=
  { pc := 0xFFFC
    sp := 0x01
    a := 0x00
    x := 0x00
    y := 0x00
    ps := psReset psLayout
    cyc := 0
    fault := .none
    mem := [] }

end Sys2Proof.Machine
end

