-- ==== Sys2Proof/Machine/Ops.lean ====
section
/-! DEFINITION. The named operations over memory and registers: memory reads and writes (20_memory.md), the counting
read and the fetches (40_fetch_execute.md), the registers, the run state, raising IllegalOpcode (60_exceptions.md),
reset (70_reset_and_hazards.md). -/

namespace Sys2Proof.Machine

/-- The byte a memory holds at a cell number: the listed one, else what an unlisted address reads as. -/
def Memory.cell (m : Memory) (k : Nat) : Byte :=
  match m with
  | [] => Config.unlistedByte
  | (k0, v) :: rest => if k0 = k then v else Memory.cell rest k

/-- Set one cell, keeping the canonical form: cells by strictly rising address, none equal to the unlisted byte. -/
def Memory.setCell (m : Memory) (k : Nat) (v : Byte) : Memory :=
  match m with
  | [] => if v = Config.unlistedByte then [] else [(k, v)]
  | (k0, w) :: rest =>
    if k < k0 then (if v = Config.unlistedByte then (k0, w) :: rest else (k, v) :: (k0, w) :: rest)
    else if k = k0 then (if v = Config.unlistedByte then rest else (k, v) :: rest)
    else (k0, w) :: Memory.setCell rest k v

/-- The canonical form from a lowest admitted cell number on. -/
def Memory.wfFrom (lo : Nat) (m : Memory) : Bool :=
  match m with
  | [] => true
  | (k, v) :: rest =>
    decide (lo ≤ k) && decide (k < 65536) && decide (v ≠ Config.unlistedByte) && Memory.wfFrom (k + 1) rest

/-- The canonical form: strictly rising cell numbers below 65,536, no entry equal to the unlisted byte. -/
def Memory.wf (m : Memory) : Bool := Memory.wfFrom 0 m

/-- `MemRead(addr, 1)`: the byte at an address (20_memory.md R30). -/
def Memory.read (m : Memory) (a : Addr) : Byte := Memory.cell m a.toNat

/-- `MemWrite(addr, 1, v)` (20_memory.md R31). -/
def Memory.write (m : Memory) (a : Addr) (v : Byte) : Memory := Memory.setCell m a.toNat v

/-- `MemRead(addr, 2)`: little-endian, the second byte at addr + 1 modulo 65536 (20_memory.md R30, R32). -/
def Memory.readWord (m : Memory) (a : Addr) : Addr := joinBytes (Memory.read m a) (Memory.read m (a + 1))

/-- `MemWrite(addr, 2, v)`: low byte at addr, high byte at addr + 1 modulo 65536 (20_memory.md R31, R32). -/
def Memory.writeWord (m : Memory) (a : Addr) (w : Addr) : Memory :=
  Memory.write (Memory.write m a (lowByte w)) (a + 1) (highByte w)

/-- `CYC <- CYC - 1` with no memory access (40_fetch_execute.md R64). -/
def charge (s : State) : State := { s with cyc := s.cyc - 1 }

/-- `ReadByteCounting(a)` (40_fetch_execute.md R63): the byte, and one cycle charged. -/
def readByteCounting (s : State) (a : Addr) : Byte × State := (Memory.read s.mem a, charge s)

/-- `pc <- (pc + 1) mod 65536` (40_fetch_execute.md R65; the wrap: 10_state.md R15). -/
def advancePc (s : State) : State := { s with pc := s.pc + 1 }

/-- `FetchByte()` (40_fetch_execute.md R65): a counting read at pc, then pc advances. -/
def fetchByte (s : State) : Byte × State :=
  ((readByteCounting s s.pc).1, advancePc (readByteCounting s s.pc).2)

/-- `FetchWord()` (40_fetch_execute.md R66): two byte fetches, low byte first. -/
def fetchWord (s : State) : Addr × State :=
  (joinBytes (fetchByte s).1 (fetchByte (fetchByte s).2).1, (fetchByte (fetchByte s).2).2)

/-- What a byte fetch does to the state, for a byte the decoder has already delivered (log 9). -/
def passByte (s : State) : State := (fetchByte s).2

/-- What a word fetch does to the state, for a word the decoder has already delivered (log 9). -/
def passWord (s : State) : State := (fetchWord s).2

/-- The instruction in the bytes at pc, pc + 1 and pc + 2 modulo 65536; `none` when the opcode is unassigned. -/
def fetchInstr (s : State) : Option Instr :=
  decode3 (Memory.read s.mem s.pc) (Memory.read s.mem (s.pc + 1)) (Memory.read s.mem (s.pc + 2))

/-- `x[i]` for an index register. -/
def indexReg (s : State) (i : Index) : Byte :=
  match i with
  | .x => s.x
  | .y => s.y

/-- `x[d]` for a load's destination register. -/
def destReg (s : State) (d : Dest) : Byte :=
  match d with
  | .a => s.a
  | .x => s.x
  | .y => s.y

/-- `x[d] <- v`: the whole 8-bit register is replaced (41_addressing_modes.md R83). -/
def setDest (d : Dest) (v : Byte) (s : State) : State :=
  match d with
  | .a => { s with a := v }
  | .x => { s with x := v }
  | .y => { s with y := v }

/-- A step of the engine is enabled: CYC > 0 and FAULT = none (40_fetch_execute.md R68, 60_exceptions.md R112). -/
def running (s : State) : Bool := decide (0 < s.cyc) && decide (s.fault = .none)

/-- `raise IllegalOpcode(b, a0)` (60_exceptions.md R103, R107): the latch is the only state written. -/
def raiseIllegalOpcode (b : Byte) (a0 : Addr) (s : State) : State := { s with fault := .illegalOpcode b a0 }

/-- A step on an unassigned opcode, under either policy: the opcode fetch, then the fault (60_exceptions.md R103) or
nothing more (60_exceptions.md R104). -/
def unassignedOpcode (p : UnassignedPolicy) (s : State) : State :=
  match p with
  | .fault => raiseIllegalOpcode (fetchByte s).1 s.pc (fetchByte s).2
  | .nop => (fetchByte s).2

/-- FAULT's 8-bit cause code (10_state.md R21, 60_exceptions.md R103). -/
def faultCode (f : FaultLatch) : Byte :=
  match f with
  | .none => 0
  | .illegalOpcode _ _ => 1

/-- FAULT's opcode field, meaningful only when the code is 1 (10_state.md R21; log 6). -/
def faultOpcode (f : FaultLatch) : Option Byte :=
  match f with
  | .none => none
  | .illegalOpcode op _ => some op

/-- FAULT's address field, meaningful only when the code is 1 (10_state.md R21; log 6). -/
def faultAddr (f : FaultLatch) : Option Addr :=
  match f with
  | .none => none
  | .illegalOpcode _ a => some a

/-- Store three bytes from an address on, modulo 65536. -/
def storeBytes3 (b0 b1 b2 : Byte) (a : Addr) (m : Memory) : Memory :=
  Memory.write (Memory.write (Memory.write m a b0) (a + 1) b1) (a + 2) b2

/-- `s` with an instruction stored at pc and the engine enabled to run it: CYC at least 1, no fault latched (log 10). -/
def placeInstr (nbits w : Nat) (s : State) : State :=
  { s with
    mem := storeBytes3 (tableByte nbits w 0) (tableByte nbits w 1) (tableByte nbits w 2) s.pc s.mem
    cyc := if 0 < s.cyc then s.cyc else 1
    fault := .none }

end Sys2Proof.Machine
end

