-- ==== Sys2Proof/Machine/Flags.lean ====
section
/-! DEFINITION. The flags of PS: their names and places, and the one flag computation of the hardware. -/

namespace Sys2Proof.Machine

/-- The eight flags of PS (10_state.md R16). -/
inductive Flag where
  | carry
  | zero
  | irqDisable
  | decimalMode
  | brk
  | unused
  | overflow
  | negative
  deriving DecidableEq, Repr

/-- A flag's bit number (10_state.md R17): 1 and 7 are the document's, the six others the layout's (log 3). -/
def flagBit (f : Flag) : Nat :=
  match f with
  | .zero => 1
  | .negative => 7
  | .carry => psLayout.carry
  | .irqDisable => psLayout.irqDisable
  | .decimalMode => psLayout.decimalMode
  | .brk => psLayout.brk
  | .unused => psLayout.unused
  | .overflow => psLayout.overflow

/-- The value of a flag in PS. -/
def flagOf (ps : Byte) (f : Flag) : Bool := ps.getLsbD (flagBit f)

/-- `SetZN(v)` on PS: PS[1] <- (v = 0), PS[7] <- v[7], the other six bits kept (41_addressing_modes.md R83). -/
def znUpdate (v : Byte) (ps : Byte) : Byte := setBit (setBit ps 1 (decide (v = 0))) 7 (v.getLsbD 7)

/-- `SetZN(v)` (41_addressing_modes.md R83). -/
def setZN (v : Byte) (s : State) : State := { s with ps := znUpdate v s.ps }

/-- `Load(d, v)`: the destination register, then the two flags from the same byte (41_addressing_modes.md R83, R84). -/
def load (d : Dest) (v : Byte) (s : State) : State := setZN v (setDest d v s)

end Sys2Proof.Machine
end

