-- ==== Sys2Proof/Machine/Operands.lean ====
section
/-! DEFINITION. The operand forms: effective addresses, the page-crossing predicate and the five resolvers of
41_addressing_modes.md. A resolver takes the operand the decoder assembled and charges and advances for its bytes as the
spec's fetches do; it runs after the opcode fetch, `passByte`. -/

namespace Sys2Proof.Machine

/-- Zero page: `zext_16(B1)` (41_addressing_modes.md R78). -/
def eaZp (zp : Byte) : Addr := zext16 zp

/-- Zero page indexed: `zext_16((b + x[i]) mod 256)`, the carry discarded (41_addressing_modes.md R79). -/
def eaZpIdx (base idx : Byte) : Addr := zext16 (base + idx)

/-- Absolute indexed: `(base + zext_16(x[i])) mod 65536` (41_addressing_modes.md R81). -/
def eaAbsIdx (base : Addr) (idx : Byte) : Addr := base + zext16 idx

/-- `PageCrossed(base, ea)` under either rule (41_addressing_modes.md R82). -/
def pageCrossed (rule : PageCrossRule) (base ea : Addr) : Bool :=
  match rule with
  | .differs => highByte ea != highByte base
  | .nonzero => highByte ea != 0

/-- `ResolveImm()`: the operand byte itself (41_addressing_modes.md R77). -/
def resolveImm (imm : Byte) (s : State) : Byte × State := (imm, passByte s)

/-- `ResolveZp()` (41_addressing_modes.md R78). -/
def resolveZp (zp : Byte) (s : State) : Byte × State := readByteCounting (passByte s) (eaZp zp)

/-- `ResolveZpIdx(i)`: one more cycle for the index computation, always (41_addressing_modes.md R79). -/
def resolveZpIdx (i : Index) (base : Byte) (s : State) : Byte × State :=
  readByteCounting (charge (passByte s)) (eaZpIdx base (indexReg s i))

/-- `ResolveAbs()` (41_addressing_modes.md R80). -/
def resolveAbs (addr : Addr) (s : State) : Byte × State := readByteCounting (passWord s) addr

/-- The page-crossing charge: one cycle if crossed, before the read (41_addressing_modes.md R81). -/
def chargeIf (c : Bool) (s : State) : State := if c then charge s else s

/-- `ResolveAbsIdx(i)` under either page-crossing rule (41_addressing_modes.md R81, R82). -/
def resolveAbsIdx (rule : PageCrossRule) (i : Index) (base : Addr) (s : State) : Byte × State :=
  readByteCounting (chargeIf (pageCrossed rule base (eaAbsIdx base (indexReg s i))) (passWord s))
    (eaAbsIdx base (indexReg s i))

/-- Commit what a resolver answered: `Load(d, v)`, and the instruction is complete (41_addressing_modes.md R76, R83). -/
def commit (d : Dest) (r : Byte × State) : Host.Outcome State Fault Refusal := .next (load d r.1 r.2)

end Sys2Proof.Machine
end

