-- ==== Sys2Proof/Machine/Lda.lean ====
section
/-! DEFINITION. The LDA family: load the accumulator A (42_lda.md). Each meaning is the whole step, from pc at the opcode byte. -/

namespace Sys2Proof.Machine

/-- LDA #imm (42_lda.md R86). -/
def execLdaImm (imm : Byte) (s : State) : Host.Outcome State Fault Refusal :=
  commit .a (resolveImm imm (passByte s))

/-- LDA zp (42_lda.md R87). -/
def execLdaZp (zp : Byte) (s : State) : Host.Outcome State Fault Refusal :=
  commit .a (resolveZp zp (passByte s))

/-- LDA zp,X (42_lda.md R88). -/
def execLdaZpX (base : Byte) (s : State) : Host.Outcome State Fault Refusal :=
  commit .a (resolveZpIdx .x base (passByte s))

/-- LDA abs (42_lda.md R89). -/
def execLdaAbs (addr : Addr) (s : State) : Host.Outcome State Fault Refusal :=
  commit .a (resolveAbs addr (passByte s))

/-- LDA abs,X (42_lda.md R90). -/
def execLdaAbsX (base : Addr) (s : State) : Host.Outcome State Fault Refusal :=
  commit .a (resolveAbsIdx params.pageCross .x base (passByte s))

/-- LDA abs,Y (42_lda.md R91). -/
def execLdaAbsY (base : Addr) (s : State) : Host.Outcome State Fault Refusal :=
  commit .a (resolveAbsIdx params.pageCross .y base (passByte s))

end Sys2Proof.Machine
end

