-- ==== Sys2Proof/Machine/Ldx.lean ====
section
/-! DEFINITION. The LDX family: load the index register X (43_ldx.md). Each meaning is the whole step, from pc at the opcode byte. -/

namespace Sys2Proof.Machine

/-- LDX #imm (43_ldx.md R92). -/
def execLdxImm (imm : Byte) (s : State) : Host.Outcome State Fault Refusal :=
  commit .x (resolveImm imm (passByte s))

/-- LDX zp (43_ldx.md R93). -/
def execLdxZp (zp : Byte) (s : State) : Host.Outcome State Fault Refusal :=
  commit .x (resolveZp zp (passByte s))

/-- LDX zp,Y (43_ldx.md R94). -/
def execLdxZpY (base : Byte) (s : State) : Host.Outcome State Fault Refusal :=
  commit .x (resolveZpIdx .y base (passByte s))

/-- LDX abs (43_ldx.md R95). -/
def execLdxAbs (addr : Addr) (s : State) : Host.Outcome State Fault Refusal :=
  commit .x (resolveAbs addr (passByte s))

/-- LDX abs,Y (43_ldx.md R96). -/
def execLdxAbsY (base : Addr) (s : State) : Host.Outcome State Fault Refusal :=
  commit .x (resolveAbsIdx params.pageCross .y base (passByte s))

end Sys2Proof.Machine
end

