-- ==== Sys2Proof/Machine/Ldy.lean ====
section
/-! DEFINITION. The LDY family: load the index register Y (44_ldy.md). Each meaning is the whole step, from pc at the opcode byte. -/

namespace Sys2Proof.Machine

/-- LDY #imm (44_ldy.md R97). -/
def execLdyImm (imm : Byte) (s : State) : Host.Outcome State Fault Refusal :=
  commit .y (resolveImm imm (passByte s))

/-- LDY zp (44_ldy.md R98). -/
def execLdyZp (zp : Byte) (s : State) : Host.Outcome State Fault Refusal :=
  commit .y (resolveZp zp (passByte s))

/-- LDY zp,X (44_ldy.md R99). -/
def execLdyZpX (base : Byte) (s : State) : Host.Outcome State Fault Refusal :=
  commit .y (resolveZpIdx .x base (passByte s))

/-- LDY abs (44_ldy.md R100). -/
def execLdyAbs (addr : Addr) (s : State) : Host.Outcome State Fault Refusal :=
  commit .y (resolveAbs addr (passByte s))

/-- LDY abs,X (44_ldy.md R101). -/
def execLdyAbsX (base : Addr) (s : State) : Host.Outcome State Fault Refusal :=
  commit .y (resolveAbsIdx params.pageCross .x base (passByte s))

end Sys2Proof.Machine
end

