-- ==== Sys2Proof/Machine/Engine.lean ====
section
/-! DEFINITION. What a step of the CPU engine does when it is enabled and when it is not (40_fetch_execute.md R67, R68). -/

namespace Sys2Proof.Machine

/-- An enabled step: the instruction at pc, or the unassigned-opcode step (40_fetch_execute.md R67). -/
def enabledStep (s : State) : Host.Outcome State Fault Refusal :=
  match fetchInstr s with
  | some i => exec i s
  | none => .next (unassignedOpcode params.unassigned s)

/-- The engine is idle and nothing changes, however long it lasts (60_exceptions.md R112; log 5). -/
def idleStep (s : State) : Host.Outcome State Fault Refusal := .next s

end Sys2Proof.Machine
end

