-- ==== Sys2Proof/Machine/Step.lean ====
section
/-! DEFINITION. One step of the CPU engine (40_fetch_execute.md R67, R68), and the placing of one instruction where the
next step fetches. -/

namespace Sys2Proof.Machine

/-- One step: enabled if and only if CYC > 0 and FAULT = none (40_fetch_execute.md R68). -/
def step (s : State) : Host.Outcome State Fault Refusal :=
  if running s then enabledStep s else idleStep s

/-- `s` with an instruction placed so that the next step runs it. It stands for the host's writing the program and starting a
run (70_reset_and_hazards.md R117 steps 3 to 5; log 10). -/
def State.withFetchWord (s : State) (nbits w : Nat) : State := placeInstr nbits w s

end Sys2Proof.Machine
end

