-- ==== Sys2Proof/Machine/Pseudocode.lean ====
section
/-! DEFINITION. The spec's own pseudocode of one step (40_fetch_execute.md R67, 41_addressing_modes.md R76 to R81),
transcribed with its byte-by-byte fetches and its two policy parameters as arguments. `step` is meant to agree with it at
the default parameters; at the other parameter values it is the model of the alternatives that 00_scope.md R6 allows. -/

namespace Sys2Proof.Machine

/-- `Resolve(mode, i)` (41_addressing_modes.md R76 to R81), fetching its own operand bytes. -/
def pseudoResolve (rule : PageCrossRule) (m : Mode) (s : State) : Byte × State :=
  match m with
  | .imm => fetchByte s
  | .zp =>
    let f := fetchByte s
    readByteCounting f.2 (zext16 f.1)
  | .zpi i =>
    let f := fetchByte s
    let ea := zext16 (f.1 + indexReg f.2 i)
    readByteCounting (charge f.2) ea
  | .abs =>
    let f := fetchWord s
    readByteCounting f.2 f.1
  | .absi i =>
    let f := fetchWord s
    let ea := f.1 + zext16 (indexReg f.2 i)
    readByteCounting (chargeIf (pageCrossed rule f.1 ea) f.2) ea

/-- `Step()` (40_fetch_execute.md R67) under given parameters. -/
def pseudoStep (p : Params) (s : State) : State :=
  let f := fetchByte s
  match decodeOpcode f.1 with
  | .assigned form =>
    let r := pseudoResolve p.pageCross form.mode f.2
    load form.dest r.1 r.2
  | .unassigned b =>
    match p.unassigned with
    | .fault => raiseIllegalOpcode b s.pc f.2
    | .nop => f.2

/-- `Execute()` (40_fetch_execute.md R67) under given parameters, for at most `fuel` steps. -/
def pseudoExecuteFor (p : Params) (fuel : Nat) (s : State) : State :=
  match fuel with
  | 0 => s
  | n + 1 => if running s then pseudoExecuteFor p n (pseudoStep p s) else s

/-- `Run(budget)` (70_reset_and_hazards.md R119) under given parameters; a run of budget n takes at most n steps (R75). -/
def pseudoRun (p : Params) (budget : Int) (s : State) : State :=
  pseudoExecuteFor p budget.toNat { s with cyc := budget }

end Sys2Proof.Machine
end

