-- ==== Sys2Proof/Machine/Reads.lean ====
section
/-! DEFINITION. The addresses one instruction reads, in order (20_memory.md R48), and what it costs (40_fetch_execute.md
R73): what the spec says of them is said about these functions (log 13). -/

namespace Sys2Proof.Machine

/-- The address of the data read: none for the immediate form (00_scope.md glossary, 41_addressing_modes.md R77 to R81). -/
def effectiveAddress (i : Instr) (s : State) : Option Addr :=
  match i with
  | .ldaImm _ => none
  | .ldaZp zp => some (eaZp zp)
  | .ldaZpX base => some (eaZpIdx base s.x)
  | .ldaAbs addr => some addr
  | .ldaAbsX base => some (eaAbsIdx base s.x)
  | .ldaAbsY base => some (eaAbsIdx base s.y)
  | .ldxImm _ => none
  | .ldxZp zp => some (eaZp zp)
  | .ldxZpY base => some (eaZpIdx base s.y)
  | .ldxAbs addr => some addr
  | .ldxAbsY base => some (eaAbsIdx base s.y)
  | .ldyImm _ => none
  | .ldyZp zp => some (eaZp zp)
  | .ldyZpX base => some (eaZpIdx base s.x)
  | .ldyAbs addr => some addr
  | .ldyAbsX base => some (eaAbsIdx base s.x)

/-- The `n` addresses from `a` on, modulo 65536. -/
def addrsFrom (a : Addr) (n : Nat) : List Addr := (List.range n).map (fun k => a + BitVec.ofNat 16 k)

/-- The reads of one instruction in order: its own bytes, then the data byte (20_memory.md R48). -/
def readsOf (i : Instr) (s : State) : List Addr :=
  addrsFrom s.pc (instrLength i) ++ (effectiveAddress i s).toList

/-- The cycles beyond the reads: one for the zero-page index computation, one for a page crossing (40_fetch_execute.md R64). -/
def extraCharge (i : Instr) (s : State) : Nat :=
  match i with
  | .ldaImm _ => 0
  | .ldaZp _ => 0
  | .ldaZpX _ => 1
  | .ldaAbs _ => 0
  | .ldaAbsX base => (pageCrossed params.pageCross base (eaAbsIdx base s.x)).toNat
  | .ldaAbsY base => (pageCrossed params.pageCross base (eaAbsIdx base s.y)).toNat
  | .ldxImm _ => 0
  | .ldxZp _ => 0
  | .ldxZpY _ => 1
  | .ldxAbs _ => 0
  | .ldxAbsY base => (pageCrossed params.pageCross base (eaAbsIdx base s.y)).toNat
  | .ldyImm _ => 0
  | .ldyZp _ => 0
  | .ldyZpX _ => 1
  | .ldyAbs _ => 0
  | .ldyAbsX base => (pageCrossed params.pageCross base (eaAbsIdx base s.x)).toNat

/-- The cost of an instruction: its reads and its extra charge (40_fetch_execute.md R73). -/
def costOf (i : Instr) (s : State) : Nat := (readsOf i s).length + extraCharge i s

end Sys2Proof.Machine
end

