-- ==== Sys2Proof/Machine/HostOps.lean ====
section
/-! DEFINITION. The other agent: the host's operations (70_reset_and_hazards.md R114 to R121, 20_memory.md R34 to R36,
10_state.md R27), each legal only while the engine is idle, and the execute loop that the run operation starts. -/

namespace Sys2Proof.Machine

/-- The operations by which the host changes the state. It writes CYC only through `run` and FAULT never (10_state.md R27). -/
inductive HostOp where
  /-- `Reset()` (70_reset_and_hazards.md R114). -/
  | reset
  /-- `init()`: zero the memory (20_memory.md R34). -/
  | init
  | writeByte (a : Addr) (v : Byte)
  | writeWord (a : Addr) (w : Addr)
  | setPc (v : Addr)
  | setSp (v : Byte)
  | setA (v : Byte)
  | setX (v : Byte)
  | setY (v : Byte)
  | setPs (v : Byte)
  /-- `Run(budget)` (70_reset_and_hazards.md R119): any signed budget. -/
  | run (budget : Int)
  deriving DecidableEq, Repr

/-- What the host can read back (10_state.md R27, 20_memory.md R35, R36, 70_reset_and_hazards.md R120). -/
inductive HostQuery where
  | readByte (a : Addr)
  | readWord (a : Addr)
  | pc
  | sp
  | a
  | x
  | y
  | ps
  | cyc
  | fault
  deriving DecidableEq, Repr

/-- The value a query answers. -/
inductive HostValue where
  | byte (v : Byte)
  | word (v : Addr)
  | count (n : Int)
  | latch (f : FaultLatch)
  deriving DecidableEq, Repr

/-- `Execute()` (40_fetch_execute.md R67) for at most `fuel` steps: while a step is enabled, take it. -/
def executeFor (fuel : Nat) (s : State) : Host.Outcome State Fault Refusal :=
  match fuel with
  | 0 => .next s
  | n + 1 =>
    if running s then
      match step s with
      | .next t => executeFor n t
      | .fault r => .fault r
      | .refused r => .refused r
    else .next s

/-- `Execute()` (40_fetch_execute.md R67). A run started with CYC = n performs at most n steps (R75), so that many are
enough to reach its end. -/
def execute (s : State) : Host.Outcome State Fault Refusal := executeFor s.cyc.toNat s

/-- `Run(budget)`: CYC <- budget, then Execute() (70_reset_and_hazards.md R119; CYC is loaded on a faulted core too, D20). -/
def hostRun (budget : Int) (s : State) : Host.Outcome State Fault Refusal := execute { s with cyc := budget }

/-- The effect of a host operation on an idle core. -/
def hostEffect (op : HostOp) (s : State) : Host.Outcome State Fault Refusal :=
  match op with
  | .reset => .next State.reset
  | .init => .next { s with mem := [] }
  | .writeByte a v => .next { s with mem := Memory.write s.mem a v }
  | .writeWord a w => .next { s with mem := Memory.writeWord s.mem a w }
  | .setPc v => .next { s with pc := v }
  | .setSp v => .next { s with sp := v }
  | .setA v => .next { s with a := v }
  | .setX v => .next { s with x := v }
  | .setY v => .next { s with y := v }
  | .setPs v => .next { s with ps := v }
  | .run budget => hostRun budget s

/-- A host operation: refused while the engine runs (70_reset_and_hazards.md R121; log 7). -/
def hostOp (op : HostOp) (s : State) : Host.Outcome State Fault Refusal :=
  if running s then .refused .hostWhileRunning else hostEffect op s

/-- What a query reads; it changes nothing. -/
def hostRead (q : HostQuery) (s : State) : HostValue :=
  match q with
  | .readByte a => .byte (Memory.read s.mem a)
  | .readWord a => .word (Memory.readWord s.mem a)
  | .pc => .word s.pc
  | .sp => .byte s.sp
  | .a => .byte s.a
  | .x => .byte s.x
  | .y => .byte s.y
  | .ps => .byte s.ps
  | .cyc => .count s.cyc
  | .fault => .latch s.fault

/-- A host read: no answer while the engine runs (70_reset_and_hazards.md R121). -/
def hostQuery (q : HostQuery) (s : State) : Option HostValue :=
  if running s then none else some (hostRead q s)

end Sys2Proof.Machine
end

