-- ==== Sys2Proof/Safety.lean ====
section
/-! DEFINITION. What counts as a good state and as a normal end of a run, in the terms the statements use. -/

namespace Sys2Proof.Safety

open Sys2Proof.Machine

/-- The latch holds nothing, or an opcode byte that really is unassigned (10_state.md R21, 60_exceptions.md R103). -/
def LatchValid (f : FaultLatch) : Prop :=
  match f with
  | .none => True
  | .illegalOpcode op _ => decodeOpcode op = .unassigned op

/-- The model's invariant: memory is in its canonical form (log 8), and the fault latch is valid. -/
def Inv (s : State) : Prop := Memory.wf s.mem = true ∧ LatchValid s.fault

/-- The engine is idle (60_exceptions.md R112): no step is enabled; a run is over (40_fetch_execute.md R75). -/
def Idle (s : State) : Prop := running s = false

/-- A run that is over and ended normally (40_fetch_execute.md R75). -/
def EndedNormally (s : State) : Prop := s.cyc ≤ 0 ∧ s.fault = .none

/-- The verdict on the state in which a run ended: a latched fault makes it no normal final state (40_fetch_execute.md
R75, 60_exceptions.md R107). -/
def verdict (s : State) : Host.Outcome State Fault Refusal :=
  match s.fault with
  | .none => .next s
  | .illegalOpcode op a => .fault (.illegalOpcode op a)

/-- PS after a load of `v`: the spec's own formula, "(PS before and 0x7D) or (0x02 if value = 0) or (value and 0x80)"
(95_test_vectors.md V-FLAGS, which restates 41_addressing_modes.md R83). -/
def psAfter (v ps : Byte) : Byte := (ps &&& 0x7D) ||| (if v = 0x00 then 0x02 else 0x00) ||| (v &&& 0x80)

/-- The six bits of PS other than 1 and 7, as a mask (10_state.md R19). -/
def storageBits (ps : Byte) : Byte := ps &&& 0x7D

end Sys2Proof.Safety
end

