-- ==== Sys2Proof/Certificates/Slice0/Obligations.lean ====
section
/-! DEFINITION. The statements for the provers, taken from the numbered rules of spec/. -/

open Sys2Proof Sys2Proof.Machine Sys2Proof.Safety

/-! ## Encoding -/

/-- Decoding an encoded instruction gives it back, whatever bytes follow (30_encoding.md R50 to R54). -/
def Obligations.DecodeOfEncode : Prop :=
  ∀ (i : Instr) (rest : List Byte), decode (encode i ++ rest) = .instr i rest

/-- The other direction: bytes that decode to an instruction are its encoding and the rest (30_encoding.md R61: no other
spelling exists). -/
def Obligations.EncodeOfDecode : Prop :=
  ∀ (bs : List Byte) (i : Instr) (rest : List Byte), decode bs = .instr i rest → bs = encode i ++ rest

/-- `Decode` (30_encoding.md R62): total on all 256 byte values, assigned exactly on the rows of R54. -/
def Obligations.DecodeIsTheOpcodeMap : Prop :=
  ∀ b : Byte, decodeOpcode b =
    if b = 0xA9 then .assigned ⟨.a, .imm⟩
    else if b = 0xA5 then .assigned ⟨.a, .zp⟩
    else if b = 0xB5 then .assigned ⟨.a, .zpi .x⟩
    else if b = 0xAD then .assigned ⟨.a, .abs⟩
    else if b = 0xBD then .assigned ⟨.a, .absi .x⟩
    else if b = 0xB9 then .assigned ⟨.a, .absi .y⟩
    else if b = 0xA2 then .assigned ⟨.x, .imm⟩
    else if b = 0xA6 then .assigned ⟨.x, .zp⟩
    else if b = 0xB6 then .assigned ⟨.x, .zpi .y⟩
    else if b = 0xAE then .assigned ⟨.x, .abs⟩
    else if b = 0xBE then .assigned ⟨.x, .absi .y⟩
    else if b = 0xA0 then .assigned ⟨.y, .imm⟩
    else if b = 0xA4 then .assigned ⟨.y, .zp⟩
    else if b = 0xB4 then .assigned ⟨.y, .zpi .x⟩
    else if b = 0xAC then .assigned ⟨.y, .abs⟩
    else if b = 0xBC then .assigned ⟨.y, .absi .x⟩
    else .unassigned b

/-- The length comes from the opcode alone (30_encoding.md R52): bytes with an assigned opcode decode to an instruction exactly
when there are enough of them, and the instruction takes that many; an unassigned opcode is rejected by name, whatever follows. -/
def Obligations.LengthFromOpcodeAlone : Prop :=
  (∀ (b : Byte) (bs : List Byte) (f : Form), decodeOpcode b = .assigned f →
    (modeLength f.mode = if f.mode = .abs ∨ f.mode = .absi .x ∨ f.mode = .absi .y then 3 else 2) ∧
    ((b :: bs).length < modeLength f.mode → decode (b :: bs) = .truncated) ∧
    (modeLength f.mode ≤ (b :: bs).length →
      ∃ i, decode (b :: bs) = .instr i ((b :: bs).drop (modeLength f.mode)) ∧ formOf i = f)) ∧
  ∀ (b : Byte) (bs : List Byte), decodeOpcode b = .unassigned b → decode (b :: bs) = .unassigned b

/-- Words written out from the spec (42_lda.md R86, R89, 43_ldx.md R94, 44_ldy.md R101, 30_encoding.md R57) decode to what
they stand for. -/
def Obligations.SpecWordsDecode : Prop :=
  decode [0xA9, 0x7F] = .instr (.ldaImm 0x7F) [] ∧
  decode [0xAD, 0x34, 0x12] = .instr (.ldaAbs 0x1234) [] ∧
  decode [0xB6, 0x20] = .instr (.ldxZpY 0x20) [] ∧
  decode [0xBC, 0xFF, 0xFF] = .instr (.ldyAbsX 0xFFFF) [] ∧
  decode [0xA1, 0x10] = .unassigned 0xA1 ∧
  decode [0x00] = .unassigned 0x00

/-- No instruction's destination is its own index register (10_state.md R12, 41_addressing_modes.md R85). -/
def Obligations.NoSelfIndexing : Prop :=
  ∀ (b : Byte) (d : Dest) (i : Index),
    decodeOpcode b = .assigned ⟨d, .zpi i⟩ ∨ decodeOpcode b = .assigned ⟨d, .absi i⟩ →
      ¬ (d = .x ∧ i = .x) ∧ ¬ (d = .y ∧ i = .y)

/-! ## The results of the 16 instructions -/

/-- LDA #imm (42_lda.md R86): its encoding, that a running engine with 0xA9 at pc runs it with the bytes after it, and its
whole effect: A, Z and N, pc, CYC, and nothing else. -/
def Obligations.LdaImmediateResult : Prop :=
  (∀ o : Byte, encode (.ldaImm o) = [0xA9, o]) ∧
  (∀ s : State, running s = true → Memory.read s.mem s.pc = 0xA9 →
    step s = exec (.ldaImm (Memory.read s.mem (s.pc + 1))) s) ∧
  ∀ (o : Byte) (s : State),
    exec (.ldaImm o) s = .next { s with a := o, ps := psAfter o s.ps, pc := s.pc + 2, cyc := s.cyc - 2 }

/-- LDA zp (42_lda.md R87): its encoding, that a running engine with 0xA5 at pc runs it with the bytes after it, and its
whole effect: A, Z and N, pc, CYC, and nothing else. -/
def Obligations.LdaZeroPageResult : Prop :=
  (∀ o : Byte, encode (.ldaZp o) = [0xA5, o]) ∧
  (∀ s : State, running s = true → Memory.read s.mem s.pc = 0xA5 →
    step s = exec (.ldaZp (Memory.read s.mem (s.pc + 1))) s) ∧
  ∀ (o : Byte) (s : State),
    let ea : Addr := BitVec.ofNat 16 o.toNat
    let v := Memory.read s.mem ea
    exec (.ldaZp o) s = .next { s with a := v, ps := psAfter v s.ps, pc := s.pc + 2, cyc := s.cyc - 3 }

/-- LDA zp,X (42_lda.md R88): its encoding, that a running engine with 0xB5 at pc runs it with the bytes after it, and its
whole effect: A, Z and N, pc, CYC, and nothing else. -/
def Obligations.LdaZeroPageXResult : Prop :=
  (∀ o : Byte, encode (.ldaZpX o) = [0xB5, o]) ∧
  (∀ s : State, running s = true → Memory.read s.mem s.pc = 0xB5 →
    step s = exec (.ldaZpX (Memory.read s.mem (s.pc + 1))) s) ∧
  ∀ (o : Byte) (s : State),
    let ea : Addr := BitVec.ofNat 16 ((o.toNat + s.x.toNat) % 256)
    let v := Memory.read s.mem ea
    exec (.ldaZpX o) s = .next { s with a := v, ps := psAfter v s.ps, pc := s.pc + 2, cyc := s.cyc - 4 }

/-- LDA abs (42_lda.md R89): its encoding, that a running engine with 0xAD at pc runs it with the bytes after it, and its
whole effect: A, Z and N, pc, CYC, and nothing else. -/
def Obligations.LdaAbsoluteResult : Prop :=
  (∀ o : Addr, encode (.ldaAbs o) = [0xAD, BitVec.ofNat 8 (o.toNat % 256), BitVec.ofNat 8 (o.toNat / 256)]) ∧
  (∀ s : State, running s = true → Memory.read s.mem s.pc = 0xAD →
    step s = exec (.ldaAbs (Memory.read s.mem (s.pc + 2) ++ Memory.read s.mem (s.pc + 1))) s) ∧
  ∀ (o : Addr) (s : State),
    let v := Memory.read s.mem o
    exec (.ldaAbs o) s = .next { s with a := v, ps := psAfter v s.ps, pc := s.pc + 3, cyc := s.cyc - 4 }

/-- LDA abs,X (42_lda.md R90): its encoding, that a running engine with 0xBD at pc runs it with the bytes after it, and its
whole effect: A, Z and N, pc, CYC, and nothing else. -/
def Obligations.LdaAbsoluteXResult : Prop :=
  (∀ o : Addr, encode (.ldaAbsX o) = [0xBD, BitVec.ofNat 8 (o.toNat % 256), BitVec.ofNat 8 (o.toNat / 256)]) ∧
  (∀ s : State, running s = true → Memory.read s.mem s.pc = 0xBD →
    step s = exec (.ldaAbsX (Memory.read s.mem (s.pc + 2) ++ Memory.read s.mem (s.pc + 1))) s) ∧
  ∀ (o : Addr) (s : State),
    let ea : Addr := BitVec.ofNat 16 ((o.toNat + s.x.toNat) % 65536)
    let v := Memory.read s.mem ea
    exec (.ldaAbsX o) s = .next { s with a := v, ps := psAfter v s.ps, pc := s.pc + 3, cyc := s.cyc - (if pageCrossed params.pageCross o ea then 5 else 4) }

/-- LDA abs,Y (42_lda.md R91): its encoding, that a running engine with 0xB9 at pc runs it with the bytes after it, and its
whole effect: A, Z and N, pc, CYC, and nothing else. -/
def Obligations.LdaAbsoluteYResult : Prop :=
  (∀ o : Addr, encode (.ldaAbsY o) = [0xB9, BitVec.ofNat 8 (o.toNat % 256), BitVec.ofNat 8 (o.toNat / 256)]) ∧
  (∀ s : State, running s = true → Memory.read s.mem s.pc = 0xB9 →
    step s = exec (.ldaAbsY (Memory.read s.mem (s.pc + 2) ++ Memory.read s.mem (s.pc + 1))) s) ∧
  ∀ (o : Addr) (s : State),
    let ea : Addr := BitVec.ofNat 16 ((o.toNat + s.y.toNat) % 65536)
    let v := Memory.read s.mem ea
    exec (.ldaAbsY o) s = .next { s with a := v, ps := psAfter v s.ps, pc := s.pc + 3, cyc := s.cyc - (if pageCrossed params.pageCross o ea then 5 else 4) }

/-- LDX #imm (43_ldx.md R92): its encoding, that a running engine with 0xA2 at pc runs it with the bytes after it, and its
whole effect: X, Z and N, pc, CYC, and nothing else. -/
def Obligations.LdxImmediateResult : Prop :=
  (∀ o : Byte, encode (.ldxImm o) = [0xA2, o]) ∧
  (∀ s : State, running s = true → Memory.read s.mem s.pc = 0xA2 →
    step s = exec (.ldxImm (Memory.read s.mem (s.pc + 1))) s) ∧
  ∀ (o : Byte) (s : State),
    exec (.ldxImm o) s = .next { s with x := o, ps := psAfter o s.ps, pc := s.pc + 2, cyc := s.cyc - 2 }

/-- LDX zp (43_ldx.md R93): its encoding, that a running engine with 0xA6 at pc runs it with the bytes after it, and its
whole effect: X, Z and N, pc, CYC, and nothing else. -/
def Obligations.LdxZeroPageResult : Prop :=
  (∀ o : Byte, encode (.ldxZp o) = [0xA6, o]) ∧
  (∀ s : State, running s = true → Memory.read s.mem s.pc = 0xA6 →
    step s = exec (.ldxZp (Memory.read s.mem (s.pc + 1))) s) ∧
  ∀ (o : Byte) (s : State),
    let ea : Addr := BitVec.ofNat 16 o.toNat
    let v := Memory.read s.mem ea
    exec (.ldxZp o) s = .next { s with x := v, ps := psAfter v s.ps, pc := s.pc + 2, cyc := s.cyc - 3 }

/-- LDX zp,Y (43_ldx.md R94): its encoding, that a running engine with 0xB6 at pc runs it with the bytes after it, and its
whole effect: X, Z and N, pc, CYC, and nothing else. -/
def Obligations.LdxZeroPageYResult : Prop :=
  (∀ o : Byte, encode (.ldxZpY o) = [0xB6, o]) ∧
  (∀ s : State, running s = true → Memory.read s.mem s.pc = 0xB6 →
    step s = exec (.ldxZpY (Memory.read s.mem (s.pc + 1))) s) ∧
  ∀ (o : Byte) (s : State),
    let ea : Addr := BitVec.ofNat 16 ((o.toNat + s.y.toNat) % 256)
    let v := Memory.read s.mem ea
    exec (.ldxZpY o) s = .next { s with x := v, ps := psAfter v s.ps, pc := s.pc + 2, cyc := s.cyc - 4 }

/-- LDX abs (43_ldx.md R95): its encoding, that a running engine with 0xAE at pc runs it with the bytes after it, and its
whole effect: X, Z and N, pc, CYC, and nothing else. -/
def Obligations.LdxAbsoluteResult : Prop :=
  (∀ o : Addr, encode (.ldxAbs o) = [0xAE, BitVec.ofNat 8 (o.toNat % 256), BitVec.ofNat 8 (o.toNat / 256)]) ∧
  (∀ s : State, running s = true → Memory.read s.mem s.pc = 0xAE →
    step s = exec (.ldxAbs (Memory.read s.mem (s.pc + 2) ++ Memory.read s.mem (s.pc + 1))) s) ∧
  ∀ (o : Addr) (s : State),
    let v := Memory.read s.mem o
    exec (.ldxAbs o) s = .next { s with x := v, ps := psAfter v s.ps, pc := s.pc + 3, cyc := s.cyc - 4 }

/-- LDX abs,Y (43_ldx.md R96): its encoding, that a running engine with 0xBE at pc runs it with the bytes after it, and its
whole effect: X, Z and N, pc, CYC, and nothing else. -/
def Obligations.LdxAbsoluteYResult : Prop :=
  (∀ o : Addr, encode (.ldxAbsY o) = [0xBE, BitVec.ofNat 8 (o.toNat % 256), BitVec.ofNat 8 (o.toNat / 256)]) ∧
  (∀ s : State, running s = true → Memory.read s.mem s.pc = 0xBE →
    step s = exec (.ldxAbsY (Memory.read s.mem (s.pc + 2) ++ Memory.read s.mem (s.pc + 1))) s) ∧
  ∀ (o : Addr) (s : State),
    let ea : Addr := BitVec.ofNat 16 ((o.toNat + s.y.toNat) % 65536)
    let v := Memory.read s.mem ea
    exec (.ldxAbsY o) s = .next { s with x := v, ps := psAfter v s.ps, pc := s.pc + 3, cyc := s.cyc - (if pageCrossed params.pageCross o ea then 5 else 4) }

/-- LDY #imm (44_ldy.md R97): its encoding, that a running engine with 0xA0 at pc runs it with the bytes after it, and its
whole effect: Y, Z and N, pc, CYC, and nothing else. -/
def Obligations.LdyImmediateResult : Prop :=
  (∀ o : Byte, encode (.ldyImm o) = [0xA0, o]) ∧
  (∀ s : State, running s = true → Memory.read s.mem s.pc = 0xA0 →
    step s = exec (.ldyImm (Memory.read s.mem (s.pc + 1))) s) ∧
  ∀ (o : Byte) (s : State),
    exec (.ldyImm o) s = .next { s with y := o, ps := psAfter o s.ps, pc := s.pc + 2, cyc := s.cyc - 2 }

/-- LDY zp (44_ldy.md R98): its encoding, that a running engine with 0xA4 at pc runs it with the bytes after it, and its
whole effect: Y, Z and N, pc, CYC, and nothing else. -/
def Obligations.LdyZeroPageResult : Prop :=
  (∀ o : Byte, encode (.ldyZp o) = [0xA4, o]) ∧
  (∀ s : State, running s = true → Memory.read s.mem s.pc = 0xA4 →
    step s = exec (.ldyZp (Memory.read s.mem (s.pc + 1))) s) ∧
  ∀ (o : Byte) (s : State),
    let ea : Addr := BitVec.ofNat 16 o.toNat
    let v := Memory.read s.mem ea
    exec (.ldyZp o) s = .next { s with y := v, ps := psAfter v s.ps, pc := s.pc + 2, cyc := s.cyc - 3 }

/-- LDY zp,X (44_ldy.md R99): its encoding, that a running engine with 0xB4 at pc runs it with the bytes after it, and its
whole effect: Y, Z and N, pc, CYC, and nothing else. -/
def Obligations.LdyZeroPageXResult : Prop :=
  (∀ o : Byte, encode (.ldyZpX o) = [0xB4, o]) ∧
  (∀ s : State, running s = true → Memory.read s.mem s.pc = 0xB4 →
    step s = exec (.ldyZpX (Memory.read s.mem (s.pc + 1))) s) ∧
  ∀ (o : Byte) (s : State),
    let ea : Addr := BitVec.ofNat 16 ((o.toNat + s.x.toNat) % 256)
    let v := Memory.read s.mem ea
    exec (.ldyZpX o) s = .next { s with y := v, ps := psAfter v s.ps, pc := s.pc + 2, cyc := s.cyc - 4 }

/-- LDY abs (44_ldy.md R100): its encoding, that a running engine with 0xAC at pc runs it with the bytes after it, and its
whole effect: Y, Z and N, pc, CYC, and nothing else. -/
def Obligations.LdyAbsoluteResult : Prop :=
  (∀ o : Addr, encode (.ldyAbs o) = [0xAC, BitVec.ofNat 8 (o.toNat % 256), BitVec.ofNat 8 (o.toNat / 256)]) ∧
  (∀ s : State, running s = true → Memory.read s.mem s.pc = 0xAC →
    step s = exec (.ldyAbs (Memory.read s.mem (s.pc + 2) ++ Memory.read s.mem (s.pc + 1))) s) ∧
  ∀ (o : Addr) (s : State),
    let v := Memory.read s.mem o
    exec (.ldyAbs o) s = .next { s with y := v, ps := psAfter v s.ps, pc := s.pc + 3, cyc := s.cyc - 4 }

/-- LDY abs,X (44_ldy.md R101): its encoding, that a running engine with 0xBC at pc runs it with the bytes after it, and its
whole effect: Y, Z and N, pc, CYC, and nothing else. -/
def Obligations.LdyAbsoluteXResult : Prop :=
  (∀ o : Addr, encode (.ldyAbsX o) = [0xBC, BitVec.ofNat 8 (o.toNat % 256), BitVec.ofNat 8 (o.toNat / 256)]) ∧
  (∀ s : State, running s = true → Memory.read s.mem s.pc = 0xBC →
    step s = exec (.ldyAbsX (Memory.read s.mem (s.pc + 2) ++ Memory.read s.mem (s.pc + 1))) s) ∧
  ∀ (o : Addr) (s : State),
    let ea : Addr := BitVec.ofNat 16 ((o.toNat + s.x.toNat) % 65536)
    let v := Memory.read s.mem ea
    exec (.ldyAbsX o) s = .next { s with y := v, ps := psAfter v s.ps, pc := s.pc + 3, cyc := s.cyc - (if pageCrossed params.pageCross o ea then 5 else 4) }

/-! ## The shared operations -/

/-- The counting read, the byte fetch and the word fetch (40_fetch_execute.md R63, R65, R66): the bytes they answer and the
whole of what they change; at pc = 0xFFFF a word fetch takes its high byte from 0x0000 and leaves pc = 0x0001. The wrap of pc is
the spec's own decision (92_eei_decisions.md D7, log 14), and the spec marks the 0xFFFF sentence of R66 as derived from it. -/
def Obligations.FetchPrimitives : Prop :=
  (∀ (s : State) (a : Addr), readByteCounting s a = (Memory.read s.mem a, { s with cyc := s.cyc - 1 })) ∧
  (∀ s : State, fetchByte s =
    (Memory.read s.mem s.pc, { s with pc := BitVec.ofNat 16 ((s.pc.toNat + 1) % 65536), cyc := s.cyc - 1 })) ∧
  (∀ s : State, fetchWord s =
    (Memory.read s.mem (s.pc + 1) ++ Memory.read s.mem s.pc, { s with pc := s.pc + 2, cyc := s.cyc - 2 })) ∧
  ∀ s : State, s.pc = 0xFFFF →
    (fetchWord s).1 = Memory.read s.mem 0x0000 ++ Memory.read s.mem 0xFFFF ∧ (fetchWord s).2.pc = 0x0001

/-- `Load(d, v)` (41_addressing_modes.md R83): the destination is v, PS[1] is v = 0, PS[7] is v[7], the other six bits of
PS and every other element keep their values, and Z and N are never both set. -/
def Obligations.LoadSetsRegisterAndFlags : Prop :=
  ∀ (d : Dest) (v : Byte) (s : State),
    destReg (load d v s) d = v ∧
    (∀ d', d' ≠ d → destReg (load d v s) d' = destReg s d') ∧
    (load d v s).ps.getLsbD 1 = decide (v = 0x00) ∧
    (load d v s).ps.getLsbD 7 = v.getLsbD 7 ∧
    (∀ k, k ≠ 1 → k ≠ 7 → (load d v s).ps.getLsbD k = s.ps.getLsbD k) ∧
    ¬ ((load d v s).ps.getLsbD 1 = true ∧ (load d v s).ps.getLsbD 7 = true) ∧
    (load d v s).pc = s.pc ∧ (load d v s).sp = s.sp ∧ (load d v s).cyc = s.cyc ∧
    (load d v s).fault = s.fault ∧ (load d v s).mem = s.mem

/-- The page-crossing predicate (41_addressing_modes.md R82): under `differs` it is the carry out of the low-byte addition,
under `nonzero` it is a sum modulo 65536 of at least 256. The model's default is `differs` (92_eei_decisions.md D4, log 2). -/
def Obligations.PageCrossingPredicate : Prop :=
  params.pageCross = .differs ∧
  ∀ (base : Addr) (idx : Byte),
    (pageCrossed .differs base (eaAbsIdx base idx) = true ↔ 256 ≤ base.toNat % 256 + idx.toNat) ∧
    (pageCrossed .nonzero base (eaAbsIdx base idx) = true ↔ 256 ≤ (base.toNat + idx.toNat) % 65536)

/-- The two page-crossing rules give the same destination, effective address, pc and flags: a step under one differs from a
step under the other in CYC alone (95_test_vectors.md V-ABSI, 41_addressing_modes.md R82). -/
def Obligations.PageCrossRulesDifferOnlyInCost : Prop :=
  ∀ (u : UnassignedPolicy) (s : State),
    { pseudoStep ⟨u, .nonzero⟩ s with cyc := 0 } = { pseudoStep ⟨u, .differs⟩ s with cyc := 0 } ∧
    (pseudoStep ⟨u, .nonzero⟩ s).cyc ≤ (pseudoStep ⟨u, .differs⟩ s).cyc + 1 ∧
    (pseudoStep ⟨u, .differs⟩ s).cyc ≤ (pseudoStep ⟨u, .nonzero⟩ s).cyc + 1

/-! ## The step -/

/-- A step runs the decoded instruction: when the engine runs and the bytes at pc, pc + 1, pc + 2 (modulo 65536) decode to a
well-formed instruction, step is exec of it, nothing around it: exec itself moves pc past its bytes. -/
def Obligations.StepRunsDecodedInstruction : Prop :=
  ∀ (s : State) (i : Instr) (rest : List Byte), running s = true →
    decode [Memory.read s.mem s.pc, Memory.read s.mem (s.pc + 1), Memory.read s.mem (s.pc + 2)] = .instr i rest →
    i.wellFormed = true ∧ step s = exec i s

/-- A step is enabled if and only if CYC > 0 and FAULT = none (40_fetch_execute.md R68): then it changes the state, lowering
CYC; otherwise nothing changes (60_exceptions.md R112; that the idle step answers the same state is log 5). -/
def Obligations.StepEnabledIff : Prop :=
  ∀ s : State,
    (0 < s.cyc ∧ s.fault = .none → ∃ t, step s = .next t ∧ t.cyc < s.cyc) ∧
    (¬ (0 < s.cyc ∧ s.fault = .none) → step s = .next s)

/-- The frame of every step (40_fetch_execute.md R68): MEM, SP and PS bits 0, 2, 3, 4, 5, 6 never change; an instruction
changes no register but its destination and no latch; a step that runs no instruction changes no register and no flag. -/
def Obligations.StepFrame : Prop :=
  ∀ s t : State, step s = .next t →
    t.mem = s.mem ∧ t.sp = s.sp ∧
    (∀ k, k ≠ 1 → k ≠ 7 → t.ps.getLsbD k = s.ps.getLsbD k) ∧
    match fetchInstr s with
    | some i => (∀ d, d ≠ (formOf i).dest → destReg t d = destReg s d) ∧ t.fault = s.fault
    | none => (∀ d, destReg t d = destReg s d) ∧ t.ps = s.ps

/-- The flags after an instruction come from the loaded byte alone, always set or cleared (10_state.md R18). -/
def Obligations.FlagsFromLoadedByte : Prop :=
  ∀ (i : Instr) (s t : State), exec i s = .next t →
    t.ps.getLsbD 1 = decide (destReg t (formOf i).dest = 0x00) ∧
    t.ps.getLsbD 7 = (destReg t (formOf i).dest).getLsbD 7

/-- The loaded byte of every instruction: the operand byte for the immediate forms, else the byte at the effective address
in the memory before the step (41_addressing_modes.md R77 to R81, R84). -/
def Obligations.LoadedByteFromEffectiveAddress : Prop :=
  ∀ (s : State) (i : Instr), fetchInstr s = some i →
    ∃ t, exec i s = .next t ∧
      destReg t (formOf i).dest =
        match effectiveAddress i s with
        | some ea => Memory.read s.mem ea
        | none => Memory.read s.mem (s.pc + 1)

/-- Each instruction advances pc by its length modulo 65536 (10_state.md R15, 40_fetch_execute.md R74). The wrap is the spec's
own decision (92_eei_decisions.md D7, log 14). -/
def Obligations.PcAdvancesByLength : Prop :=
  ∀ (i : Instr) (s : State), ∃ t, exec i s = .next t ∧
    t.pc.toNat = (s.pc.toNat + (encode i).length) % 65536

/-- The cycle costs of 40_fetch_execute.md R73: 2, 3, 4, 4, and 4 or 5; they are the reads and the extra charge. -/
def Obligations.CycleCosts : Prop :=
  ∀ (i : Instr) (s : State), ∃ t, exec i s = .next t ∧
    s.cyc - t.cyc = ((readsOf i s).length : Int) + (extraCharge i s : Int) ∧
    match (formOf i).mode with
    | .imm => (readsOf i s).length = 2 ∧ extraCharge i s = 0
    | .zp => (readsOf i s).length = 3 ∧ extraCharge i s = 0
    | .zpi _ => (readsOf i s).length = 3 ∧ extraCharge i s = 1
    | .abs => (readsOf i s).length = 4 ∧ extraCharge i s = 0
    | .absi _ => (readsOf i s).length = 4 ∧ extraCharge i s ≤ 1

/-- The cost of any enabled step is at least 1 and at most 5, and exactly 1 for an unassigned opcode (40_fetch_execute.md R71, R73). -/
def Obligations.StepCostBounds : Prop :=
  ∀ s : State, running s = true → ∃ t, step s = .next t ∧
    1 ≤ s.cyc - t.cyc ∧ s.cyc - t.cyc ≤ 5 ∧
    (decodeOpcode (Memory.read s.mem s.pc) = .unassigned (Memory.read s.mem s.pc) → s.cyc - t.cyc = 1)

/-- IllegalOpcode is taken (60_exceptions.md R103, R107): the latch records the opcode byte and its address, pc has moved
past the opcode byte, one cycle is charged, and nothing else changes. That the policy is `fault` is the default of
92_eei_decisions.md D2 (log 1). -/
def Obligations.IllegalOpcodeEntry : Prop :=
  ∀ s : State, running s = true →
    decodeOpcode (Memory.read s.mem s.pc) = .unassigned (Memory.read s.mem s.pc) →
    step s = .next { s with
      pc := s.pc + 1
      cyc := s.cyc - 1
      fault := .illegalOpcode (Memory.read s.mem s.pc) s.pc }

/-- Under the other policy the step is the opcode fetch alone (60_exceptions.md R104), for either page-crossing rule. -/
def Obligations.UnassignedOpcodeAsNop : Prop :=
  ∀ (r : PageCrossRule) (s : State),
    decodeOpcode (Memory.read s.mem s.pc) = .unassigned (Memory.read s.mem s.pc) →
    pseudoStep ⟨.nop, r⟩ s = { s with pc := s.pc + 1, cyc := s.cyc - 1 } ∧
    unassignedOpcode .nop s = { s with pc := s.pc + 1, cyc := s.cyc - 1 }

/-- The step is the spec's pseudocode of 40_fetch_execute.md R67, byte-by-byte fetches and all, at the configured parameters. -/
def Obligations.StepRefinesPseudocode : Prop :=
  ∀ s : State, running s = true → step s = .next (pseudoStep params s)

/-- The run operation is the spec's execute loop over that pseudocode (40_fetch_execute.md R67, 70_reset_and_hazards.md R119). -/
def Obligations.RunRefinesPseudocode : Prop :=
  ∀ (budget : Int) (s : State), hostRun budget s = .next (pseudoRun params budget s)

/-! ## Invariants -/

/-- Every step keeps the invariant: memory in canonical form, and the latch holding only an unassigned opcode. -/
def Obligations.StepKeepsInv : Prop := ∀ s t : State, Inv s → step s = .next t → Inv t

/-- The invariant holds after reset. -/
def Obligations.ResetMeetsInv : Prop := Inv State.reset

/-- Every host operation keeps the invariant, a whole run included. -/
def Obligations.HostOperationsKeepInv : Prop :=
  ∀ (op : HostOp) (s t : State), Inv s → hostOp op s = .next t → Inv t

/-- CYC never goes below -4 by a step, and a two's-complement counter of any width of 4 bits or more never underflows
(40_fetch_execute.md R71, 10_state.md R20); it never rises. -/
def Obligations.CounterBounds : Prop :=
  ∀ s t : State, step s = .next t →
    t.cyc ≤ s.cyc ∧
    (-4 ≤ s.cyc → -4 ≤ t.cyc) ∧
    ∀ w : Nat, 4 ≤ w → -(2 ^ (w - 1) : Int) ≤ s.cyc → -(2 ^ (w - 1) : Int) ≤ t.cyc

/-! ## What a step depends on -/

/-- A step reads memory only at its reads (20_memory.md R48, 40_fetch_execute.md R68): any memory that agrees there gives the
same step, itself unchanged. -/
def Obligations.StepDependsOnlyOnItsReads : Prop :=
  ∀ (s t : State) (i : Instr) (m : Memory), running s = true → fetchInstr s = some i →
    (∀ a ∈ readsOf i s, Memory.read m a = Memory.read s.mem a) →
    step s = .next t → step { s with mem := m } = .next { t with mem := m }

/-- No step reads PS or SP (10_state.md R13, R18): other values of them change nothing else. -/
def Obligations.StepIgnoresFlagsAndSp : Prop :=
  ∀ (s t : State) (p q : Byte), step s = .next t →
    ∃ t', step { s with ps := p, sp := q } = .next t' ∧ t'.sp = q ∧ { t' with ps := t.ps, sp := t.sp } = t

/-- Beyond the loop test no step depends on how much budget is left (40_fetch_execute.md R69): more budget, same step. -/
def Obligations.StepCommutesWithMoreBudget : Prop :=
  ∀ (s t : State) (n : Nat), running s = true → step s = .next t →
    step { s with cyc := s.cyc + n } = .next { t with cyc := t.cyc + n }

/-! ## The run -/

/-- Every run ends: the run operation answers a state in which no step is enabled (40_fetch_execute.md R75). -/
def Obligations.RunEndsIdle : Prop :=
  ∀ (budget : Int) (s : State), ∃ t, hostRun budget s = .next t ∧ Idle t

/-- The counter at the end of a run of at least one step (40_fetch_execute.md R71): from -4 to 0 after a normal end, and at
least 0 and below the budget after a fault. -/
def Obligations.RunEndCounter : Prop :=
  ∀ (budget : Int) (s t : State), 0 < budget → s.fault = .none → hostRun budget s = .next t →
    (t.fault = .none → -4 ≤ t.cyc ∧ t.cyc ≤ 0) ∧ (t.fault ≠ .none → 0 ≤ t.cyc ∧ t.cyc < budget)

/-- A run with a budget of zero or less, or on a faulted core, loads CYC and performs no step (40_fetch_execute.md R70,
70_reset_and_hazards.md R119). -/
def Obligations.RunWithoutStep : Prop :=
  ∀ (budget : Int) (s : State), budget ≤ 0 ∨ s.fault ≠ .none → hostRun budget s = .next { s with cyc := budget }

/-- A run that overdrew its budget ends the same with the budget raised by the overdraft, CYC then 0
(70_reset_and_hazards.md R119: the same instructions are executed). -/
def Obligations.OverdraftPaidInAdvance : Prop :=
  ∀ (budget : Int) (s t : State), 0 < budget → hostRun budget s = .next t → t.cyc ≤ 0 → t.fault = .none →
    hostRun (budget - t.cyc) s = .next { t with cyc := 0 }

/-- A run changes no memory cell, no SP, and none of the six storage flags (20_memory.md R39, 10_state.md R13, R19). -/
def Obligations.RunFrame : Prop :=
  ∀ (budget : Int) (s t : State), hostRun budget s = .next t →
    t.mem = s.mem ∧ t.sp = s.sp ∧ storageBits t.ps = storageBits s.ps

/-! ## The host -/

/-- After reset the state is exactly the table of 10_state.md R25, PS told flag by flag: only UNUSED and IRQ_DISABLE set. CYC = 0
and FAULT = none are the spec's own decisions (92_eei_decisions.md D6, D12), pc = 0xFFFC and SP = 0x01 literals it decided to
take as written (D13): log 14. -/
def Obligations.ResetState : Prop :=
  State.reset.pc = 0xFFFC ∧ State.reset.sp = 0x01 ∧ State.reset.a = 0x00 ∧ State.reset.x = 0x00 ∧ State.reset.y = 0x00 ∧
  (∀ f : Flag, flagOf State.reset.ps f = (f == .unused || f == .irqDisable)) ∧
  (∀ a : Addr, Memory.read State.reset.mem a = 0x00) ∧
  State.reset.cyc = 0 ∧ State.reset.fault = .none

/-- For every placing of the six flags that the spec admits (92_eei_decisions.md D3, log 3), PS after reset has exactly the
UNUSED and IRQ_DISABLE bits set, so ZERO and NEGATIVE are clear (91_not_in_source.md N3). -/
def Obligations.ResetPsForEveryLayout : Prop :=
  ∀ l : PsLayout, psLayoutValid l = true →
    ∀ k, k < 8 → (psReset l).getLsbD k = (k == l.unused || k == l.irqDisable) ∧ (psReset l).getLsbD 1 = false ∧
      (psReset l).getLsbD 7 = false

/-- Reset does not depend on the state before it, a faulted one included, and twice is once (70_reset_and_hazards.md R115). -/
def Obligations.ResetFromAnyIdleState : Prop :=
  ∀ s : State, running s = false → hostOp .reset s = .next State.reset ∧ hostOp .reset State.reset = .next State.reset

/-- The fault latch is sticky (60_exceptions.md R108): no step and no host operation but reset changes it; reset clears it. The
latch and its stickiness are the spec's own decisions (92_eei_decisions.md D12, D20, log 14); that the step of a faulted core
answers the same state, where the spec says that no step is enabled, is the model's choice of log 5. -/
def Obligations.FaultLatchIsSticky : Prop :=
  ∀ s : State, s.fault ≠ .none →
    step s = .next s ∧
    (∀ op : HostOp, op ≠ .reset → ∃ t, hostOp op s = .next t ∧ t.fault = s.fault) ∧
    hostOp .reset s = .next State.reset ∧ State.reset.fault = .none

/-- The host must not act while the engine runs (70_reset_and_hazards.md R121): every operation is refused, no read answers
(the refusal's form is the model's choice of log 7); while it is idle every operation answers a state and every read a value. -/
def Obligations.HostActsOnlyWhileIdle : Prop :=
  (∀ (op : HostOp) (s : State), running s = true → hostOp op s = .refused .hostWhileRunning) ∧
  (∀ (q : HostQuery) (s : State), running s = true → hostQuery q s = none) ∧
  (∀ (op : HostOp) (s : State), running s = false → ∃ t, hostOp op s = .next t) ∧
  (∀ (q : HostQuery) (s : State), running s = false → hostQuery q s = some (hostRead q s))

/-- `writeByte(a, v)` (20_memory.md R31, R33, R35): the next read of a gives v, every other address reads as before, and no
other element changes. -/
def Obligations.HostWriteByteThenRead : Prop :=
  ∀ (s : State) (a : Addr) (v : Byte), Inv s → running s = false →
    ∃ t, hostOp (.writeByte a v) s = .next t ∧ hostQuery (.readByte a) t = some (.byte v) ∧
      (∀ b, b ≠ a → hostQuery (.readByte b) t = hostQuery (.readByte b) s) ∧ { t with mem := s.mem } = s

/-- `writeWord(a, w)` (20_memory.md R31, R32, R36): low byte at a, high byte at a + 1 modulo 65536 (at 0xFFFF the high byte
lands at address 0), the next readWord(a) gives w, every other address reads as before, no other element changes. -/
def Obligations.HostWriteWordThenRead : Prop :=
  ∀ (s : State) (a w : Addr), Inv s → running s = false →
    ∃ t, hostOp (.writeWord a w) s = .next t ∧ hostQuery (.readWord a) t = some (.word w) ∧
      Memory.read t.mem a = BitVec.ofNat 8 (w.toNat % 256) ∧
      Memory.read t.mem (BitVec.ofNat 16 ((a.toNat + 1) % 65536)) = BitVec.ofNat 8 (w.toNat / 256) ∧
      (∀ b, b ≠ a → b ≠ a + 1 → Memory.read t.mem b = Memory.read s.mem b) ∧ { t with mem := s.mem } = s

/-- `init()` (20_memory.md R34): all 65,536 cells zero, no CPU state changed, no cycle charged. -/
def Obligations.HostInitZeroesMemory : Prop :=
  ∀ s : State, running s = false →
    ∃ t, hostOp .init s = .next t ∧ (∀ a : Addr, hostQuery (.readByte a) t = some (.byte 0x00)) ∧ { t with mem := s.mem } = s

/-- The host writes pc, SP, A, X, Y and PS with any value, each alone (10_state.md R27, 70_reset_and_hazards.md R118). -/
def Obligations.HostWritesEachRegister : Prop :=
  ∀ (s : State) (w : Addr) (v : Byte), running s = false →
    hostOp (.setPc w) s = .next { s with pc := w } ∧
    hostOp (.setSp v) s = .next { s with sp := v } ∧
    hostOp (.setA v) s = .next { s with a := v } ∧
    hostOp (.setX v) s = .next { s with x := v } ∧
    hostOp (.setY v) s = .next { s with y := v } ∧
    hostOp (.setPs v) s = .next { s with ps := v }
end

