-- ==== Sys2Proof/Laws/State.lean ====
section
/-! SUPPORT. One lemma per field per named update of the state, so that no later proof unfolds a record update. -/

namespace Sys2Proof.Machine

@[simp] theorem charge_pc (s : State) : (charge s).pc = s.pc := rfl
@[simp] theorem charge_sp (s : State) : (charge s).sp = s.sp := rfl
@[simp] theorem charge_a (s : State) : (charge s).a = s.a := rfl
@[simp] theorem charge_x (s : State) : (charge s).x = s.x := rfl
@[simp] theorem charge_y (s : State) : (charge s).y = s.y := rfl
@[simp] theorem charge_ps (s : State) : (charge s).ps = s.ps := rfl
@[simp] theorem charge_cyc (s : State) : (charge s).cyc = s.cyc - 1 := rfl
@[simp] theorem charge_fault (s : State) : (charge s).fault = s.fault := rfl
@[simp] theorem charge_mem (s : State) : (charge s).mem = s.mem := rfl

@[simp] theorem advancePc_pc (s : State) : (advancePc s).pc = s.pc + 1 := rfl
@[simp] theorem advancePc_sp (s : State) : (advancePc s).sp = s.sp := rfl
@[simp] theorem advancePc_a (s : State) : (advancePc s).a = s.a := rfl
@[simp] theorem advancePc_x (s : State) : (advancePc s).x = s.x := rfl
@[simp] theorem advancePc_y (s : State) : (advancePc s).y = s.y := rfl
@[simp] theorem advancePc_ps (s : State) : (advancePc s).ps = s.ps := rfl
@[simp] theorem advancePc_cyc (s : State) : (advancePc s).cyc = s.cyc := rfl
@[simp] theorem advancePc_fault (s : State) : (advancePc s).fault = s.fault := rfl
@[simp] theorem advancePc_mem (s : State) : (advancePc s).mem = s.mem := rfl

@[simp] theorem passByte_pc (s : State) : (passByte s).pc = s.pc + 1 := rfl
@[simp] theorem passByte_sp (s : State) : (passByte s).sp = s.sp := rfl
@[simp] theorem passByte_a (s : State) : (passByte s).a = s.a := rfl
@[simp] theorem passByte_x (s : State) : (passByte s).x = s.x := rfl
@[simp] theorem passByte_y (s : State) : (passByte s).y = s.y := rfl
@[simp] theorem passByte_ps (s : State) : (passByte s).ps = s.ps := rfl
@[simp] theorem passByte_cyc (s : State) : (passByte s).cyc = s.cyc - 1 := rfl
@[simp] theorem passByte_fault (s : State) : (passByte s).fault = s.fault := rfl
@[simp] theorem passByte_mem (s : State) : (passByte s).mem = s.mem := rfl

@[simp] theorem passWord_pc (s : State) : (passWord s).pc = s.pc + 2 := by
  change s.pc + 1 + 1 = s.pc + 2
  rw [BitVec.add_assoc]; rfl
@[simp] theorem passWord_sp (s : State) : (passWord s).sp = s.sp := rfl
@[simp] theorem passWord_a (s : State) : (passWord s).a = s.a := rfl
@[simp] theorem passWord_x (s : State) : (passWord s).x = s.x := rfl
@[simp] theorem passWord_y (s : State) : (passWord s).y = s.y := rfl
@[simp] theorem passWord_ps (s : State) : (passWord s).ps = s.ps := rfl
@[simp] theorem passWord_cyc (s : State) : (passWord s).cyc = s.cyc - 2 := by
  change s.cyc - 1 - 1 = s.cyc - 2
  omega
@[simp] theorem passWord_fault (s : State) : (passWord s).fault = s.fault := rfl
@[simp] theorem passWord_mem (s : State) : (passWord s).mem = s.mem := rfl

@[simp] theorem chargeIf_pc (c : Bool) (s : State) : (chargeIf c s).pc = s.pc := by cases c <;> rfl
@[simp] theorem chargeIf_sp (c : Bool) (s : State) : (chargeIf c s).sp = s.sp := by cases c <;> rfl
@[simp] theorem chargeIf_a (c : Bool) (s : State) : (chargeIf c s).a = s.a := by cases c <;> rfl
@[simp] theorem chargeIf_x (c : Bool) (s : State) : (chargeIf c s).x = s.x := by cases c <;> rfl
@[simp] theorem chargeIf_y (c : Bool) (s : State) : (chargeIf c s).y = s.y := by cases c <;> rfl
@[simp] theorem chargeIf_ps (c : Bool) (s : State) : (chargeIf c s).ps = s.ps := by cases c <;> rfl
@[simp] theorem chargeIf_cyc (c : Bool) (s : State) : (chargeIf c s).cyc = if c then s.cyc - 1 else s.cyc := by cases c <;> rfl
@[simp] theorem chargeIf_fault (c : Bool) (s : State) : (chargeIf c s).fault = s.fault := by cases c <;> rfl
@[simp] theorem chargeIf_mem (c : Bool) (s : State) : (chargeIf c s).mem = s.mem := by cases c <;> rfl

@[simp] theorem setDest_pc (d : Dest) (v : Byte) (s : State) : (setDest d v s).pc = s.pc := by cases d <;> rfl
@[simp] theorem setDest_sp (d : Dest) (v : Byte) (s : State) : (setDest d v s).sp = s.sp := by cases d <;> rfl
@[simp] theorem setDest_a (d : Dest) (v : Byte) (s : State) : (setDest d v s).a = if d = .a then v else s.a := by cases d <;> rfl
@[simp] theorem setDest_x (d : Dest) (v : Byte) (s : State) : (setDest d v s).x = if d = .x then v else s.x := by cases d <;> rfl
@[simp] theorem setDest_y (d : Dest) (v : Byte) (s : State) : (setDest d v s).y = if d = .y then v else s.y := by cases d <;> rfl
@[simp] theorem setDest_ps (d : Dest) (v : Byte) (s : State) : (setDest d v s).ps = s.ps := by cases d <;> rfl
@[simp] theorem setDest_cyc (d : Dest) (v : Byte) (s : State) : (setDest d v s).cyc = s.cyc := by cases d <;> rfl
@[simp] theorem setDest_fault (d : Dest) (v : Byte) (s : State) : (setDest d v s).fault = s.fault := by cases d <;> rfl
@[simp] theorem setDest_mem (d : Dest) (v : Byte) (s : State) : (setDest d v s).mem = s.mem := by cases d <;> rfl

@[simp] theorem setZN_pc (v : Byte) (s : State) : (setZN v s).pc = s.pc := rfl
@[simp] theorem setZN_sp (v : Byte) (s : State) : (setZN v s).sp = s.sp := rfl
@[simp] theorem setZN_a (v : Byte) (s : State) : (setZN v s).a = s.a := rfl
@[simp] theorem setZN_x (v : Byte) (s : State) : (setZN v s).x = s.x := rfl
@[simp] theorem setZN_y (v : Byte) (s : State) : (setZN v s).y = s.y := rfl
@[simp] theorem setZN_ps (v : Byte) (s : State) : (setZN v s).ps = znUpdate v s.ps := rfl
@[simp] theorem setZN_cyc (v : Byte) (s : State) : (setZN v s).cyc = s.cyc := rfl
@[simp] theorem setZN_fault (v : Byte) (s : State) : (setZN v s).fault = s.fault := rfl
@[simp] theorem setZN_mem (v : Byte) (s : State) : (setZN v s).mem = s.mem := rfl

@[simp] theorem load_pc (d : Dest) (v : Byte) (s : State) : (load d v s).pc = s.pc := by cases d <;> rfl
@[simp] theorem load_sp (d : Dest) (v : Byte) (s : State) : (load d v s).sp = s.sp := by cases d <;> rfl
@[simp] theorem load_a (d : Dest) (v : Byte) (s : State) : (load d v s).a = if d = .a then v else s.a := by cases d <;> rfl
@[simp] theorem load_x (d : Dest) (v : Byte) (s : State) : (load d v s).x = if d = .x then v else s.x := by cases d <;> rfl
@[simp] theorem load_y (d : Dest) (v : Byte) (s : State) : (load d v s).y = if d = .y then v else s.y := by cases d <;> rfl
@[simp] theorem load_ps (d : Dest) (v : Byte) (s : State) : (load d v s).ps = znUpdate v s.ps := by cases d <;> rfl
@[simp] theorem load_cyc (d : Dest) (v : Byte) (s : State) : (load d v s).cyc = s.cyc := by cases d <;> rfl
@[simp] theorem load_fault (d : Dest) (v : Byte) (s : State) : (load d v s).fault = s.fault := by cases d <;> rfl
@[simp] theorem load_mem (d : Dest) (v : Byte) (s : State) : (load d v s).mem = s.mem := by cases d <;> rfl

@[simp] theorem raiseIllegalOpcode_pc (b : Byte) (a0 : Addr) (s : State) : (raiseIllegalOpcode b a0 s).pc = s.pc := rfl
@[simp] theorem raiseIllegalOpcode_sp (b : Byte) (a0 : Addr) (s : State) : (raiseIllegalOpcode b a0 s).sp = s.sp := rfl
@[simp] theorem raiseIllegalOpcode_a (b : Byte) (a0 : Addr) (s : State) : (raiseIllegalOpcode b a0 s).a = s.a := rfl
@[simp] theorem raiseIllegalOpcode_x (b : Byte) (a0 : Addr) (s : State) : (raiseIllegalOpcode b a0 s).x = s.x := rfl
@[simp] theorem raiseIllegalOpcode_y (b : Byte) (a0 : Addr) (s : State) : (raiseIllegalOpcode b a0 s).y = s.y := rfl
@[simp] theorem raiseIllegalOpcode_ps (b : Byte) (a0 : Addr) (s : State) : (raiseIllegalOpcode b a0 s).ps = s.ps := rfl
@[simp] theorem raiseIllegalOpcode_cyc (b : Byte) (a0 : Addr) (s : State) : (raiseIllegalOpcode b a0 s).cyc = s.cyc := rfl
@[simp] theorem raiseIllegalOpcode_fault (b : Byte) (a0 : Addr) (s : State) : (raiseIllegalOpcode b a0 s).fault = .illegalOpcode b a0 := rfl
@[simp] theorem raiseIllegalOpcode_mem (b : Byte) (a0 : Addr) (s : State) : (raiseIllegalOpcode b a0 s).mem = s.mem := rfl

/-- Two states with the same nine elements are the same state (10_state.md R10). -/
theorem state_ext (s t : State) (hpc : s.pc = t.pc) (hsp : s.sp = t.sp) (ha : s.a = t.a) (hx : s.x = t.x) (hy : s.y = t.y)
    (hps : s.ps = t.ps) (hcyc : s.cyc = t.cyc) (hfault : s.fault = t.fault) (hmem : s.mem = t.mem) : s = t := by
  cases s; cases t; simp_all

end Sys2Proof.Machine
end

