-- ==== Sys2Proof/Laws/Memory.lean ====
section
/-! SUPPORT. The laws of memory: every operation keeps the canonical form; a read after a write. -/

namespace Sys2Proof.Machine

theorem wfFrom_cons (lo k : Nat) (v : Byte) (rest : Memory) :
    Memory.wfFrom lo ((k, v) :: rest) = true ↔
      lo ≤ k ∧ k < 65536 ∧ v ≠ Config.unlistedByte ∧ Memory.wfFrom (k + 1) rest = true := by
  simp [Memory.wfFrom, and_assoc]

/-- A lower bound on the cells may be lowered. -/
theorem wfFrom_mono (m : Memory) (lo lo' : Nat) (hlo : lo' ≤ lo) (h : Memory.wfFrom lo m = true) :
    Memory.wfFrom lo' m = true := by
  cases m with
  | nil => rfl
  | cons c rest =>
    obtain ⟨k, v⟩ := c
    rw [wfFrom_cons] at h ⊢
    exact ⟨by omega, h.2⟩

/-- A cell below the bound is not listed. -/
theorem cell_below (m : Memory) (lo k : Nat) (hk : k < lo) (h : Memory.wfFrom lo m = true) :
    Memory.cell m k = Config.unlistedByte := by
  induction m generalizing lo with
  | nil => rfl
  | cons c rest ih =>
    obtain ⟨k0, v⟩ := c
    rw [wfFrom_cons] at h
    have hne : k0 ≠ k := by omega
    simp only [Memory.cell, hne, if_false]
    exact ih (k0 + 1) (by omega) h.2.2.2

theorem setCell_wfFrom (m : Memory) (lo k : Nat) (v : Byte) (hlo : lo ≤ k) (hk : k < 65536)
    (h : Memory.wfFrom lo m = true) : Memory.wfFrom lo (Memory.setCell m k v) = true := by
  induction m generalizing lo with
  | nil =>
    by_cases hv : v = Config.unlistedByte
    · simp [Memory.setCell, hv, Memory.wfFrom]
    · simp only [Memory.setCell, hv, if_false]
      rw [wfFrom_cons]
      exact ⟨hlo, hk, hv, rfl⟩
  | cons c rest ih =>
    obtain ⟨k0, w⟩ := c
    have hc := (wfFrom_cons lo k0 w rest).mp h
    obtain ⟨h1, h2, h3, h4⟩ := hc
    by_cases hlt : k < k0
    · by_cases hv : v = Config.unlistedByte
      · simpa only [Memory.setCell, hlt, hv, if_true] using h
      · simp only [Memory.setCell, hlt, hv, if_true, if_false]
        rw [wfFrom_cons, wfFrom_cons]
        exact ⟨hlo, hk, hv, by omega, h2, h3, h4⟩
    · by_cases heq : k = k0
      · subst heq
        by_cases hv : v = Config.unlistedByte
        · simp only [Memory.setCell, hlt, hv, if_true, if_false]
          exact wfFrom_mono rest (k + 1) lo (by omega) h4
        · simp only [Memory.setCell, hlt, hv, if_true, if_false]
          rw [wfFrom_cons]
          exact ⟨hlo, hk, hv, h4⟩
      · simp only [Memory.setCell, hlt, heq, if_false]
        rw [wfFrom_cons]
        exact ⟨h1, h2, h3, ih (k0 + 1) (by omega) h4⟩

theorem setCell_same (m : Memory) (lo k : Nat) (v : Byte) (h : Memory.wfFrom lo m = true) :
    Memory.cell (Memory.setCell m k v) k = v := by
  induction m generalizing lo with
  | nil =>
    by_cases hv : v = Config.unlistedByte
    · simp [Memory.setCell, Memory.cell, hv]
    · simp [Memory.setCell, Memory.cell, hv]
  | cons c rest ih =>
    obtain ⟨k0, w⟩ := c
    obtain ⟨h1, h2, h3, h4⟩ := (wfFrom_cons lo k0 w rest).mp h
    by_cases hlt : k < k0
    · by_cases hv : v = Config.unlistedByte
      · simp only [Memory.setCell, hlt, hv, if_true]
        exact cell_below ((k0, w) :: rest) (k + 1) k (by omega)
          ((wfFrom_cons (k + 1) k0 w rest).mpr ⟨by omega, h2, h3, h4⟩)
      · simp [Memory.setCell, Memory.cell, hlt, hv]
    · by_cases heq : k = k0
      · subst heq
        by_cases hv : v = Config.unlistedByte
        · simp only [Memory.setCell, hlt, hv, if_true, if_false]
          exact cell_below rest (k + 1) k (by omega) h4
        · simp [Memory.setCell, Memory.cell, hv]
      · have hne : k0 ≠ k := fun e => heq e.symm
        simp only [Memory.setCell, Memory.cell, hlt, heq, hne, if_false]
        exact ih (k0 + 1) h4

theorem setCell_other (m : Memory) (lo k j : Nat) (v : Byte) (hj : j ≠ k) (h : Memory.wfFrom lo m = true) :
    Memory.cell (Memory.setCell m k v) j = Memory.cell m j := by
  have hkj : k ≠ j := fun e => hj e.symm
  induction m generalizing lo with
  | nil =>
    by_cases hv : v = Config.unlistedByte
    · simp [Memory.setCell, hv]
    · simp [Memory.setCell, Memory.cell, hv, hkj]
  | cons c rest ih =>
    obtain ⟨k0, w⟩ := c
    obtain ⟨h1, h2, h3, h4⟩ := (wfFrom_cons lo k0 w rest).mp h
    by_cases hlt : k < k0
    · by_cases hv : v = Config.unlistedByte
      · simp [Memory.setCell, hlt, hv]
      · simp [Memory.setCell, Memory.cell, hlt, hv, hkj]
    · by_cases heq : k = k0
      · subst heq
        by_cases hv : v = Config.unlistedByte
        · simp [Memory.setCell, Memory.cell, hv, hkj]
        · simp [Memory.setCell, Memory.cell, hv, hkj]
      · simp only [Memory.setCell, Memory.cell, hlt, heq, if_false]
        rw [ih (k0 + 1) h4]

/-- `MemWrite(addr, 1, v)` keeps the canonical form. -/
theorem write_wf (m : Memory) (a : Addr) (v : Byte) (h : Memory.wf m = true) : Memory.wf (Memory.write m a v) = true :=
  setCell_wfFrom m 0 a.toNat v (Nat.zero_le _) a.isLt h

/-- `MemWrite(addr, 2, v)` keeps the canonical form. -/
theorem writeWord_wf (m : Memory) (a w : Addr) (h : Memory.wf m = true) : Memory.wf (Memory.writeWord m a w) = true :=
  write_wf _ _ _ (write_wf m a _ h)

/-- Storing an instruction's bytes keeps the canonical form. -/
theorem storeBytes3_wf (b0 b1 b2 : Byte) (a : Addr) (m : Memory) (h : Memory.wf m = true) :
    Memory.wf (storeBytes3 b0 b1 b2 a m) = true :=
  write_wf _ _ _ (write_wf _ _ _ (write_wf m a b0 h))

/-- Empty memory is in canonical form, and every address of it reads as the unlisted byte. -/
theorem nil_wf : Memory.wf [] = true := rfl

theorem nil_read (a : Addr) : Memory.read [] a = Config.unlistedByte := rfl

/-- A read after a write to the same address gives the byte written (20_memory.md R33). -/
theorem read_write_same (m : Memory) (a : Addr) (v : Byte) (h : Memory.wf m = true) :
    Memory.read (Memory.write m a v) a = v := setCell_same m 0 a.toNat v h

/-- A write leaves every other address alone (20_memory.md R31). -/
theorem read_write_other (m : Memory) (a b : Addr) (v : Byte) (hb : b ≠ a) (h : Memory.wf m = true) :
    Memory.read (Memory.write m a v) b = Memory.read m b :=
  setCell_other m 0 a.toNat b.toNat v (fun e => hb (BitVec.eq_of_toNat_eq e)) h

/-- An address and its successor differ. -/
theorem succ_ne (a : Addr) : a + 1 ≠ a := by bv_omega

/-- The equal-reads form of memory equality: canonical memories that read alike everywhere are equal lists. -/
theorem wfFrom_ext (m m' : Memory) (lo : Nat) (h : Memory.wfFrom lo m = true) (h' : Memory.wfFrom lo m' = true)
    (hr : ∀ k, Memory.cell m k = Memory.cell m' k) : m = m' := by
  induction m generalizing m' lo with
  | nil =>
    cases m' with
    | nil => rfl
    | cons c rest =>
      obtain ⟨k, v⟩ := c
      have hv := ((wfFrom_cons lo k v rest).mp h').2.2.1
      have := hr k
      simp only [Memory.cell, if_true] at this
      exact absurd this.symm hv
  | cons c rest ih =>
    obtain ⟨k, v⟩ := c
    obtain ⟨g1, g2, g3, g4⟩ := (wfFrom_cons lo k v rest).mp h
    cases m' with
    | nil =>
      have := hr k
      simp only [Memory.cell, if_true] at this
      exact absurd this g3
    | cons c' rest' =>
      obtain ⟨k', v'⟩ := c'
      obtain ⟨g1', g2', g3', g4'⟩ := (wfFrom_cons lo k' v' rest').mp h'
      have hkk : k = k' := by
        rcases Nat.lt_trichotomy k k' with hlt | heq | hgt
        · have e := hr k
          rw [cell_below ((k', v') :: rest') k' k hlt ((wfFrom_cons k' k' v' rest').mpr ⟨Nat.le_refl _, g2', g3', g4'⟩)] at e
          simp only [Memory.cell, if_true] at e
          exact absurd e g3
        · exact heq
        · have e := hr k'
          rw [cell_below ((k, v) :: rest) k k' hgt ((wfFrom_cons k k v rest).mpr ⟨Nat.le_refl _, g2, g3, g4⟩)] at e
          simp only [Memory.cell, if_true] at e
          exact absurd e.symm g3'
      subst hkk
      have hv : v = v' := by
        have e := hr k
        simpa only [Memory.cell, if_true] using e
      subst hv
      have hrest : rest = rest' := by
        refine ih rest' (k + 1) g4 g4' (fun j => ?_)
        by_cases hj : k = j
        · subst hj
          rw [cell_below rest (k + 1) k (by omega) g4, cell_below rest' (k + 1) k (by omega) g4']
        · have e := hr j
          simpa only [Memory.cell, hj, if_false] using e
      rw [hrest]

end Sys2Proof.Machine
end

