-- ==== Sys2Proof/Laws/Ops.lean ====
section
/-! SUPPORT. One lemma for each shared operation that says once what it can do: the resolvers, the commit, the step. -/

namespace Sys2Proof.Machine

@[simp] theorem params_unassigned : params.unassigned = .fault := rfl
@[simp] theorem params_pageCross : params.pageCross = .differs := rfl
@[simp] theorem unlistedByte_eq : Config.unlistedByte = 0#8 := rfl

/-- A step is enabled exactly when CYC > 0 and FAULT = none (40_fetch_execute.md R68). -/
theorem running_iff (s : State) : running s = true ↔ 0 < s.cyc ∧ s.fault = .none := by
  simp [running]

theorem not_running_iff (s : State) : running s = false ↔ s.cyc ≤ 0 ∨ s.fault ≠ .none := by
  rw [← Bool.not_eq_true, running_iff]
  by_cases h : s.fault = .none
  · simp [h]
  · simp [h]

/-- What each resolver answers and leaves (41_addressing_modes.md R77 to R81). -/
theorem resolveImm_spec (imm : Byte) (s : State) : resolveImm imm s = (imm, passByte s) := rfl

theorem resolveZp_spec (zp : Byte) (s : State) :
    resolveZp zp s = (Memory.read s.mem (zext16 zp), charge (passByte s)) := rfl

theorem resolveZpIdx_spec (i : Index) (base : Byte) (s : State) :
    resolveZpIdx i base s = (Memory.read s.mem (zext16 (base + indexReg s i)), charge (charge (passByte s))) := rfl

theorem resolveAbs_spec (addr : Addr) (s : State) :
    resolveAbs addr s = (Memory.read s.mem addr, charge (passWord s)) := rfl

theorem resolveAbsIdx_spec (rule : PageCrossRule) (i : Index) (base : Addr) (s : State) :
    resolveAbsIdx rule i base s =
      (Memory.read s.mem (base + zext16 (indexReg s i)),
        charge (chargeIf (pageCrossed rule base (base + zext16 (indexReg s i))) (passWord s))) := by
  simp [resolveAbsIdx, readByteCounting, eaAbsIdx]

/-- A commit always completes: the destination and the two flags from the resolved byte (41_addressing_modes.md R83). -/
theorem commit_spec (d : Dest) (r : Byte × State) : commit d r = .next (load d r.1 r.2) := rfl

/-- Every instruction completes (60_exceptions.md R102: the 16 assigned instructions raise nothing). -/
theorem exec_next (i : Instr) (s : State) : ∃ t, exec i s = .next t := by
  cases i <;> exact ⟨_, rfl⟩

/-- An enabled step runs the instruction at pc. -/
theorem step_of_instr (s : State) (i : Instr) (hr : running s = true) (hi : fetchInstr s = some i) : step s = exec i s := by
  simp [step, enabledStep, hr, hi]

/-- An enabled step on an unassigned opcode, under the configured policy. -/
theorem step_of_unassigned (s : State) (hr : running s = true) (hi : fetchInstr s = none) :
    step s = .next (unassignedOpcode params.unassigned s) := by
  simp [step, enabledStep, hr, hi]

/-- A step that is not enabled changes nothing. -/
theorem step_of_idle (s : State) (hr : running s = false) : step s = .next s := by
  simp [step, idleStep, hr]

/-- Everything a step can do: stay idle, run an instruction, or take the unassigned-opcode step. -/
theorem step_cases (s t : State) (h : step s = .next t) :
    (running s = false ∧ t = s) ∨
    (running s = true ∧ ∃ i, fetchInstr s = some i ∧ exec i s = .next t) ∨
    (running s = true ∧ fetchInstr s = none ∧ t = unassignedOpcode params.unassigned s) := by
  unfold step at h
  split at h
  · rename_i hr
    unfold enabledStep at h
    split at h
    · rename_i i hi
      exact .inr (.inl ⟨hr, i, hi, h⟩)
    · rename_i hi
      cases h
      exact .inr (.inr ⟨hr, hi, rfl⟩)
  · rename_i hr
    cases h
    exact .inl ⟨by simpa using hr, rfl⟩

end Sys2Proof.Machine
end

