-- ==== Sys2Proof/Laws/Exec.lean ====
section
/-! SUPPORT. What every instruction does, said once; the arithmetic of pc and of effective addresses; the flag formula. -/

namespace Sys2Proof.Machine

theorem pc_one_one (p : Addr) : p + 1#16 + 1#16 = p + 2#16 := by rw [BitVec.add_assoc]; rfl

theorem pc_one_two (p : Addr) : p + 1#16 + 2#16 = p + 3#16 := by rw [BitVec.add_assoc]; rfl

/-- The zero-page address as a number (41_addressing_modes.md R78). -/
theorem eaZp_ofNat (z : Byte) : zext16 z = BitVec.ofNat 16 z.toNat := by
  apply BitVec.eq_of_toNat_eq
  have := z.isLt
  rw [zext16_toNat, BitVec.toNat_ofNat]
  omega

/-- The zero-page sum wraps modulo 256 (41_addressing_modes.md R79). -/
theorem eaZpIdx_ofNat (z i : Byte) : zext16 (z + i) = BitVec.ofNat 16 ((z.toNat + i.toNat) % 256) := by
  apply BitVec.eq_of_toNat_eq
  rw [zext16_toNat, BitVec.toNat_ofNat, BitVec.toNat_add]
  omega

/-- The absolute sum wraps modulo 65536 (41_addressing_modes.md R81). -/
theorem eaAbsIdx_ofNat (b : Addr) (i : Byte) : b + zext16 i = BitVec.ofNat 16 ((b.toNat + i.toNat) % 65536) := by
  apply BitVec.eq_of_toNat_eq
  rw [BitVec.toNat_add, zext16_toNat, BitVec.toNat_ofNat]
  omega

/-- A bit of PS after one bit of it is written (00_scope.md R8). -/
theorem setBit_getLsbD (ps : Byte) (k j : Nat) (b : Bool) (hk : k < 8) :
    (setBit ps k b).getLsbD j = if j = k then b else ps.getLsbD j := by
  have key : ∀ (k j : Fin 8) (b : Bool) (ps : Byte),
      (setBit ps k.val b).getLsbD j.val = if j = k then b else ps.getLsbD j.val := by decide
  by_cases hj : j < 8
  · simpa [Fin.ext_iff] using key ⟨k, hk⟩ ⟨j, hj⟩ b ps
  · have : j ≠ k := by omega
    rw [BitVec.getLsbD_of_ge _ _ (by omega), BitVec.getLsbD_of_ge _ _ (by omega)]
    simp [this]

/-- The flags after a load, bit by bit (41_addressing_modes.md R83). -/
theorem znUpdate_getLsbD (v ps : Byte) (k : Nat) :
    (znUpdate v ps).getLsbD k = if k = 7 then v.getLsbD 7 else if k = 1 then decide (v = 0) else ps.getLsbD k := by
  unfold znUpdate
  rw [setBit_getLsbD _ _ _ _ (by omega), setBit_getLsbD _ _ _ _ (by omega)]

/-- A commit over a resolver that only advanced pc and charged CYC. -/
theorem commit_shape (d : Dest) (r : Byte × State) (s : State) (n : Addr) (c : Int)
    (h : r.2 = { s with pc := s.pc + n, cyc := s.cyc - c }) :
    commit d r = .next { load d r.1 s with pc := s.pc + n, cyc := s.cyc - c } := by
  rw [commit_spec, h]
  cases d <;> rfl

/-- What each resolver, after the opcode fetch, does to the state: pc past the instruction, CYC down by its cost. -/
theorem resolveImm_state (imm : Byte) (s : State) :
    (resolveImm imm (passByte s)).2 = { s with pc := s.pc + 2#16, cyc := s.cyc - 2 } := by
  apply state_ext <;> simp [resolveImm, pc_one_one]
  omega

theorem resolveZp_state (zp : Byte) (s : State) :
    (resolveZp zp (passByte s)).2 = { s with pc := s.pc + 2#16, cyc := s.cyc - 3 } := by
  apply state_ext <;> simp [resolveZp, readByteCounting, pc_one_one]
  omega

theorem resolveZpIdx_state (i : Index) (base : Byte) (s : State) :
    (resolveZpIdx i base (passByte s)).2 = { s with pc := s.pc + 2#16, cyc := s.cyc - 4 } := by
  apply state_ext <;> simp [resolveZpIdx, readByteCounting, pc_one_one]
  omega

theorem resolveAbs_state (addr : Addr) (s : State) :
    (resolveAbs addr (passByte s)).2 = { s with pc := s.pc + 3#16, cyc := s.cyc - 4 } := by
  apply state_ext <;> simp [resolveAbs, readByteCounting, pc_one_two]
  omega

theorem indexReg_passByte (i : Index) (s : State) : indexReg (passByte s) i = indexReg s i := by cases i <;> rfl

theorem resolveAbsIdx_state (rule : PageCrossRule) (i : Index) (base : Addr) (s : State) :
    (resolveAbsIdx rule i base (passByte s)).2 =
      { s with pc := s.pc + 3#16
               cyc := s.cyc - (4 + ((pageCrossed rule base (eaAbsIdx base (indexReg s i))).toNat : Int)) } := by
  unfold resolveAbsIdx
  rw [indexReg_passByte]
  generalize pageCrossed rule base (eaAbsIdx base (indexReg s i)) = c
  apply state_ext <;> simp [readByteCounting, pc_one_two]
  cases c <;> simp <;> omega

theorem resolveAbsIdx_byte (rule : PageCrossRule) (i : Index) (base : Addr) (s : State) :
    (resolveAbsIdx rule i base (passByte s)).1 = Memory.read s.mem (eaAbsIdx base (indexReg s i)) := by
  simp [resolveAbsIdx, readByteCounting, indexReg_passByte]

/-- What every instruction does: it completes; it loads one byte, the one at its effective address when it has one, into
its destination and the two flags; pc moves past it; CYC pays for its reads and its extra charge; nothing else changes. -/
theorem exec_shape (i : Instr) (s : State) :
    ∃ v, (∀ ea, effectiveAddress i s = some ea → v = Memory.read s.mem ea) ∧
      exec i s = .next { load (formOf i).dest v s with
        pc := s.pc + BitVec.ofNat 16 (instrLength i)
        cyc := s.cyc - (costOf i s : Int) } := by
  cases i with
  | ldaImm v => exact ⟨v, by simp [effectiveAddress], commit_shape _ _ s _ _ (resolveImm_state v s)⟩
  | ldxImm v => exact ⟨v, by simp [effectiveAddress], commit_shape _ _ s _ _ (resolveImm_state v s)⟩
  | ldyImm v => exact ⟨v, by simp [effectiveAddress], commit_shape _ _ s _ _ (resolveImm_state v s)⟩
  | ldaZp z => exact ⟨_, by rintro ea ⟨⟩; rfl, commit_shape _ _ s _ _ (resolveZp_state z s)⟩
  | ldxZp z => exact ⟨_, by rintro ea ⟨⟩; rfl, commit_shape _ _ s _ _ (resolveZp_state z s)⟩
  | ldyZp z => exact ⟨_, by rintro ea ⟨⟩; rfl, commit_shape _ _ s _ _ (resolveZp_state z s)⟩
  | ldaZpX z => exact ⟨_, by rintro ea ⟨⟩; rfl, commit_shape _ _ s _ _ (resolveZpIdx_state .x z s)⟩
  | ldxZpY z => exact ⟨_, by rintro ea ⟨⟩; rfl, commit_shape _ _ s _ _ (resolveZpIdx_state .y z s)⟩
  | ldyZpX z => exact ⟨_, by rintro ea ⟨⟩; rfl, commit_shape _ _ s _ _ (resolveZpIdx_state .x z s)⟩
  | ldaAbs w => exact ⟨_, by rintro ea ⟨⟩; rfl, commit_shape _ _ s _ _ (resolveAbs_state w s)⟩
  | ldxAbs w => exact ⟨_, by rintro ea ⟨⟩; rfl, commit_shape _ _ s _ _ (resolveAbs_state w s)⟩
  | ldyAbs w => exact ⟨_, by rintro ea ⟨⟩; rfl, commit_shape _ _ s _ _ (resolveAbs_state w s)⟩
  | ldaAbsX w => exact ⟨_, by rintro ea ⟨⟩; exact resolveAbsIdx_byte _ .x w s,
    commit_shape _ _ s _ _ (resolveAbsIdx_state params.pageCross .x w s)⟩
  | ldaAbsY w => exact ⟨_, by rintro ea ⟨⟩; exact resolveAbsIdx_byte _ .y w s,
    commit_shape _ _ s _ _ (resolveAbsIdx_state params.pageCross .y w s)⟩
  | ldxAbsY w => exact ⟨_, by rintro ea ⟨⟩; exact resolveAbsIdx_byte _ .y w s,
    commit_shape _ _ s _ _ (resolveAbsIdx_state params.pageCross .y w s)⟩
  | ldyAbsX w => exact ⟨_, by rintro ea ⟨⟩; exact resolveAbsIdx_byte _ .x w s,
    commit_shape _ _ s _ _ (resolveAbsIdx_state params.pageCross .x w s)⟩

end Sys2Proof.Machine
end

