-- ==== Sys2Proof/Laws/PerInstr.lean ====
section
/-! SUPPORT. A law made for every instruction, one lemma per constructor: the instruction is well formed, its encoding has
its length, and its first byte is an opcode that the spec's Decode assigns to its form (30_encoding.md R52, R54, R62). -/

namespace Sys2Proof.Laws.Encoding

open Sys2Proof.Machine

/-- Well formed, of its length, and recognised by its first byte. -/
def Statement (i : Instr) : Prop :=
  i.wellFormed = true ∧ (encode i).length = instrLength i ∧
    ∃ b rest, encode i = b :: rest ∧ decodeOpcode b = .assigned (formOf i)

theorem ldaImm (o : Byte) : Statement (.ldaImm o) := ⟨rfl, rfl, _, _, rfl, rfl⟩
theorem ldaZp (o : Byte) : Statement (.ldaZp o) := ⟨rfl, rfl, _, _, rfl, rfl⟩
theorem ldaZpX (o : Byte) : Statement (.ldaZpX o) := ⟨rfl, rfl, _, _, rfl, rfl⟩
theorem ldaAbs (o : Addr) : Statement (.ldaAbs o) := ⟨rfl, rfl, _, _, rfl, rfl⟩
theorem ldaAbsX (o : Addr) : Statement (.ldaAbsX o) := ⟨rfl, rfl, _, _, rfl, rfl⟩
theorem ldaAbsY (o : Addr) : Statement (.ldaAbsY o) := ⟨rfl, rfl, _, _, rfl, rfl⟩
theorem ldxImm (o : Byte) : Statement (.ldxImm o) := ⟨rfl, rfl, _, _, rfl, rfl⟩
theorem ldxZp (o : Byte) : Statement (.ldxZp o) := ⟨rfl, rfl, _, _, rfl, rfl⟩
theorem ldxZpY (o : Byte) : Statement (.ldxZpY o) := ⟨rfl, rfl, _, _, rfl, rfl⟩
theorem ldxAbs (o : Addr) : Statement (.ldxAbs o) := ⟨rfl, rfl, _, _, rfl, rfl⟩
theorem ldxAbsY (o : Addr) : Statement (.ldxAbsY o) := ⟨rfl, rfl, _, _, rfl, rfl⟩
theorem ldyImm (o : Byte) : Statement (.ldyImm o) := ⟨rfl, rfl, _, _, rfl, rfl⟩
theorem ldyZp (o : Byte) : Statement (.ldyZp o) := ⟨rfl, rfl, _, _, rfl, rfl⟩
theorem ldyZpX (o : Byte) : Statement (.ldyZpX o) := ⟨rfl, rfl, _, _, rfl, rfl⟩
theorem ldyAbs (o : Addr) : Statement (.ldyAbs o) := ⟨rfl, rfl, _, _, rfl, rfl⟩
theorem ldyAbsX (o : Addr) : Statement (.ldyAbsX o) := ⟨rfl, rfl, _, _, rfl, rfl⟩

end Sys2Proof.Laws.Encoding
end

