-- ==== Sys2Proof/Tests/Slice0.lean ====
section
/-! SUPPORT. The model's own tests. Every expected value comes from spec/ (the source is named at each test); a witness_
theorem shows a concrete state and operands that meet the hypotheses of the obligation it is named after. -/

namespace Sys2Proof.Tests

open Sys2Proof.Machine Sys2Proof.Safety

/-- The reset state with pc, some memory and a budget set: what the host makes before a run (70_reset_and_hazards.md R117). -/
def boot (pc : Addr) (cells : List (Addr × Byte)) (cyc : Int) : State :=
  { State.reset with
    pc := pc
    cyc := cyc
    mem := cells.foldl (fun m c => Memory.write m c.1 c.2) [] }

/-- A check of the state an outcome holds; false of a fault or a refusal. -/
def next? (o : Host.Outcome State Fault Refusal) (f : State → Bool) : Bool :=
  match o with
  | .next t => f t
  | .fault _ => false
  | .refused _ => false

/-! ## Well-formedness: the five forms that are no instructions are refused (30_encoding.md R54, 43_ldx.md, 44_ldy.md) -/

theorem test_no_lda_zp_y : Form.wellFormed ⟨.a, .zpi .y⟩ = false := by decide
theorem test_no_ldx_zp_x : Form.wellFormed ⟨.x, .zpi .x⟩ = false := by decide
theorem test_no_ldx_abs_x : Form.wellFormed ⟨.x, .absi .x⟩ = false := by decide
theorem test_no_ldy_zp_y : Form.wellFormed ⟨.y, .zpi .y⟩ = false := by decide
theorem test_no_ldy_abs_y : Form.wellFormed ⟨.y, .absi .y⟩ = false := by decide

/-! ## Decoding: a word of each instruction, from the encodings of 30_encoding.md R51, R54 (bytes of the R86 to R101 examples) -/

theorem test_decode_lda_imm : decode [0b10101001, 0b01111111, 0x5A] = .instr (.ldaImm 0x7F) [0x5A] := by decide
theorem test_decode_lda_zp : decode [0b10100101, 0b00010000, 0x5A] = .instr (.ldaZp 0x10) [0x5A] := by decide
theorem test_decode_lda_zp_x : decode [0b10110101, 0b11111111, 0x5A] = .instr (.ldaZpX 0xFF) [0x5A] := by decide
theorem test_decode_lda_abs : decode [0b10101101, 0b00110100, 0b00010010, 0x5A] = .instr (.ldaAbs 0x1234) [0x5A] := by decide
theorem test_decode_lda_abs_x : decode [0b10111101, 0b11111111, 0b00000000, 0x5A] = .instr (.ldaAbsX 0x00FF) [0x5A] := by decide
theorem test_decode_lda_abs_y : decode [0b10111001, 0b00000000, 0b00100000, 0x5A] = .instr (.ldaAbsY 0x2000) [0x5A] := by decide
theorem test_decode_ldx_imm : decode [0b10100010, 0b10000000, 0x5A] = .instr (.ldxImm 0x80) [0x5A] := by decide
theorem test_decode_ldx_zp : decode [0b10100110, 0b11111111, 0x5A] = .instr (.ldxZp 0xFF) [0x5A] := by decide
theorem test_decode_ldx_zp_y : decode [0b10110110, 0b00100000, 0x5A] = .instr (.ldxZpY 0x20) [0x5A] := by decide
theorem test_decode_ldx_abs : decode [0b10101110, 0b00000000, 0b10000000, 0x5A] = .instr (.ldxAbs 0x8000) [0x5A] := by decide
theorem test_decode_ldx_abs_y : decode [0b10111110, 0b00000001, 0b00110000, 0x5A] = .instr (.ldxAbsY 0x3001) [0x5A] := by decide
theorem test_decode_ldy_imm : decode [0b10100000, 0b00000000, 0x5A] = .instr (.ldyImm 0x00) [0x5A] := by decide
theorem test_decode_ldy_zp : decode [0b10100100, 0b00000000, 0x5A] = .instr (.ldyZp 0x00) [0x5A] := by decide
theorem test_decode_ldy_zp_x : decode [0b10110100, 0b10000000, 0x5A] = .instr (.ldyZpX 0x80) [0x5A] := by decide
theorem test_decode_ldy_abs : decode [0b10101100, 0b11111111, 0b11111111, 0x5A] = .instr (.ldyAbs 0xFFFF) [0x5A] := by decide
theorem test_decode_ldy_abs_x : decode [0b10111100, 0b11111111, 0b11111111, 0x5A] = .instr (.ldyAbsX 0xFFFF) [0x5A] := by decide

/-- 30_encoding.md R57: the real 6502's BRK, NOP, JMP, STA and (zp,X), (zp),Y loads are unassigned here. -/
theorem test_decode_unassigned :
    [0x00, 0xEA, 0x4C, 0x85, 0xA1, 0xB1].all (fun b : Byte => decide (decode [b, 0x10, 0x20] = .unassigned b)) = true := by decide
theorem test_decode_truncated : decode [0xAD, 0x34] = .truncated ∧ decode [] = .truncated := by decide
/-- No two rows of the table share an opcode, and there are 16 (30_encoding.md R54). -/
theorem test_no_overlap : (opcodeTable.map (fun r => r.opcode)).Nodup ∧ opcodeTable.length = 16 := by decide
/-- 16 of the 32 byte values 0xA0 to 0xBF are assigned, and none of 0x9F, 0xC0 on either side (30_encoding.md R57). -/
theorem test_assigned_count :
    ((List.range 32).filter (fun n => (findRow (BitVec.ofNat 8 (160 + n))).isSome)).length = 16 ∧
    (findRow 0x9F).isNone = true ∧ (findRow 0xC0).isNone = true := by decide
theorem test_table_word : decodeTableWord 8 0xA9 = some (.ldaImm 0x00) ∧ decodeTableWord 24 0x1234AD = some (.ldaAbs 0x1234) := by decide

/-! ## One step of each instruction, and a state in which it runs (the witness of its result statement) -/

/-- R86 example, 95 S7. -/
theorem test_lda_imm : next? (step (boot 0x0100 [(0x0100, 0xA9), (0x0101, 0x7F)] 2)) (fun t => t.a == 0x7F && t.pc == 0x0102 && t.cyc == 0 && t.ps == 0x24) = true := by decide
theorem witness_LdaImmediateResult : running (boot 0x0100 [(0x0100, 0xA9), (0x0101, 0x7F)] 2) = true ∧
    Memory.read (boot 0x0100 [(0x0100, 0xA9), (0x0101, 0x7F)] 2).mem 0x0100 = 0xA9 := by decide

/-- R87 example. -/
theorem test_lda_zp : next? (step (boot 0x0200 [(0x0200, 0xA5), (0x0201, 0x10), (0x0010, 0x80)] 3)) (fun t => t.a == 0x80 && t.pc == 0x0202 && t.cyc == 0 && t.ps == 0xA4) = true := by decide
theorem witness_LdaZeroPageResult : running (boot 0x0200 [(0x0200, 0xA5), (0x0201, 0x10), (0x0010, 0x80)] 3) = true ∧
    Memory.read (boot 0x0200 [(0x0200, 0xA5), (0x0201, 0x10), (0x0010, 0x80)] 3).mem 0x0200 = 0xA5 := by decide

/-- R88 example, the byte at 0x0101 not read. -/
theorem test_lda_zp_x : next? (step { boot 0x0200 [(0x0200, 0xB5), (0x0201, 0xFF), (0x0101, 0x33)] 4 with x := 0x02 }) (fun t => t.a == 0x00 && t.pc == 0x0202 && t.cyc == 0 && t.ps == 0x26) = true := by decide
theorem witness_LdaZeroPageXResult : running { boot 0x0200 [(0x0200, 0xB5), (0x0201, 0xFF), (0x0101, 0x33)] 4 with x := 0x02 } = true ∧
    Memory.read { boot 0x0200 [(0x0200, 0xB5), (0x0201, 0xFF), (0x0101, 0x33)] 4 with x := 0x02 }.mem 0x0200 = 0xB5 := by decide

/-- R89 example. -/
theorem test_lda_abs : next? (step (boot 0x0200 [(0x0200, 0xAD), (0x0201, 0x34), (0x0202, 0x12), (0x1234, 0x42)] 4)) (fun t => t.a == 0x42 && t.pc == 0x0203 && t.cyc == 0 && t.ps == 0x24) = true := by decide
theorem witness_LdaAbsoluteResult : running (boot 0x0200 [(0x0200, 0xAD), (0x0201, 0x34), (0x0202, 0x12), (0x1234, 0x42)] 4) = true ∧
    Memory.read (boot 0x0200 [(0x0200, 0xAD), (0x0201, 0x34), (0x0202, 0x12), (0x1234, 0x42)] 4).mem 0x0200 = 0xAD := by decide

/-- R90 example, 95 S6. -/
theorem test_lda_abs_x : next? (step { boot 0x0200 [(0x0200, 0xBD), (0x0201, 0xFF), (0x0202, 0x00), (0x0100, 0x55)] 5 with x := 0x01 }) (fun t => t.a == 0x55 && t.pc == 0x0203 && t.cyc == 0 && t.ps == 0x24) = true := by decide
theorem witness_LdaAbsoluteXResult : running { boot 0x0200 [(0x0200, 0xBD), (0x0201, 0xFF), (0x0202, 0x00), (0x0100, 0x55)] 5 with x := 0x01 } = true ∧
    Memory.read { boot 0x0200 [(0x0200, 0xBD), (0x0201, 0xFF), (0x0202, 0x00), (0x0100, 0x55)] 5 with x := 0x01 }.mem 0x0200 = 0xBD := by decide

/-- R91 example. -/
theorem test_lda_abs_y : next? (step { boot 0x0200 [(0x0200, 0xB9), (0x0201, 0x00), (0x0202, 0x20), (0x2010, 0xFF)] 4 with y := 0x10 }) (fun t => t.a == 0xFF && t.pc == 0x0203 && t.cyc == 0 && t.ps == 0xA4) = true := by decide
theorem witness_LdaAbsoluteYResult : running { boot 0x0200 [(0x0200, 0xB9), (0x0201, 0x00), (0x0202, 0x20), (0x2010, 0xFF)] 4 with y := 0x10 } = true ∧
    Memory.read { boot 0x0200 [(0x0200, 0xB9), (0x0201, 0x00), (0x0202, 0x20), (0x2010, 0xFF)] 4 with y := 0x10 }.mem 0x0200 = 0xB9 := by decide

/-- R92 example. -/
theorem test_ldx_imm : next? (step (boot 0x0100 [(0x0100, 0xA2), (0x0101, 0x80)] 2)) (fun t => t.x == 0x80 && t.pc == 0x0102 && t.cyc == 0 && t.ps == 0xA4) = true := by decide
theorem witness_LdxImmediateResult : running (boot 0x0100 [(0x0100, 0xA2), (0x0101, 0x80)] 2) = true ∧
    Memory.read (boot 0x0100 [(0x0100, 0xA2), (0x0101, 0x80)] 2).mem 0x0100 = 0xA2 := by decide

/-- R93 example. -/
theorem test_ldx_zp : next? (step (boot 0x0200 [(0x0200, 0xA6), (0x0201, 0xFF), (0x00FF, 0x01)] 3)) (fun t => t.x == 0x01 && t.pc == 0x0202 && t.cyc == 0 && t.ps == 0x24) = true := by decide
theorem witness_LdxZeroPageResult : running (boot 0x0200 [(0x0200, 0xA6), (0x0201, 0xFF), (0x00FF, 0x01)] 3) = true ∧
    Memory.read (boot 0x0200 [(0x0200, 0xA6), (0x0201, 0xFF), (0x00FF, 0x01)] 3).mem 0x0200 = 0xA6 := by decide

/-- R94 example, 95 S9. -/
theorem test_ldx_zp_y : next? (step { boot 0x0200 [(0x0200, 0xB6), (0x0201, 0x20), (0x0021, 0x80)] 4 with y := 0x01 }) (fun t => t.x == 0x80 && t.pc == 0x0202 && t.cyc == 0 && t.ps == 0xA4) = true := by decide
theorem witness_LdxZeroPageYResult : running { boot 0x0200 [(0x0200, 0xB6), (0x0201, 0x20), (0x0021, 0x80)] 4 with y := 0x01 } = true ∧
    Memory.read { boot 0x0200 [(0x0200, 0xB6), (0x0201, 0x20), (0x0021, 0x80)] 4 with y := 0x01 }.mem 0x0200 = 0xB6 := by decide

/-- R95 example. -/
theorem test_ldx_abs : next? (step (boot 0x0200 [(0x0200, 0xAE), (0x0201, 0x00), (0x0202, 0x80), (0x8000, 0x00)] 4)) (fun t => t.x == 0x00 && t.pc == 0x0203 && t.cyc == 0 && t.ps == 0x26) = true := by decide
theorem witness_LdxAbsoluteResult : running (boot 0x0200 [(0x0200, 0xAE), (0x0201, 0x00), (0x0202, 0x80), (0x8000, 0x00)] 4) = true ∧
    Memory.read (boot 0x0200 [(0x0200, 0xAE), (0x0201, 0x00), (0x0202, 0x80), (0x8000, 0x00)] 4).mem 0x0200 = 0xAE := by decide

/-- R96 example. -/
theorem test_ldx_abs_y : next? (step { boot 0x0200 [(0x0200, 0xBE), (0x0201, 0x01), (0x0202, 0x30), (0x3100, 0x7F)] 5 with y := 0xFF }) (fun t => t.x == 0x7F && t.pc == 0x0203 && t.cyc == 0 && t.ps == 0x24) = true := by decide
theorem witness_LdxAbsoluteYResult : running { boot 0x0200 [(0x0200, 0xBE), (0x0201, 0x01), (0x0202, 0x30), (0x3100, 0x7F)] 5 with y := 0xFF } = true ∧
    Memory.read { boot 0x0200 [(0x0200, 0xBE), (0x0201, 0x01), (0x0202, 0x30), (0x3100, 0x7F)] 5 with y := 0xFF }.mem 0x0200 = 0xBE := by decide

/-- R97 example. -/
theorem test_ldy_imm : next? (step { boot 0x0100 [(0x0100, 0xA0), (0x0101, 0x00)] 2 with y := 0x55 }) (fun t => t.y == 0x00 && t.pc == 0x0102 && t.cyc == 0 && t.ps == 0x26) = true := by decide
theorem witness_LdyImmediateResult : running { boot 0x0100 [(0x0100, 0xA0), (0x0101, 0x00)] 2 with y := 0x55 } = true ∧
    Memory.read { boot 0x0100 [(0x0100, 0xA0), (0x0101, 0x00)] 2 with y := 0x55 }.mem 0x0100 = 0xA0 := by decide

/-- R98 example. -/
theorem test_ldy_zp : next? (step (boot 0x0200 [(0x0200, 0xA4), (0x0201, 0x00), (0x0000, 0xC3)] 3)) (fun t => t.y == 0xC3 && t.pc == 0x0202 && t.cyc == 0 && t.ps == 0xA4) = true := by decide
theorem witness_LdyZeroPageResult : running (boot 0x0200 [(0x0200, 0xA4), (0x0201, 0x00), (0x0000, 0xC3)] 3) = true ∧
    Memory.read (boot 0x0200 [(0x0200, 0xA4), (0x0201, 0x00), (0x0000, 0xC3)] 3).mem 0x0200 = 0xA4 := by decide

/-- R99 example. -/
theorem test_ldy_zp_x : next? (step { boot 0x0200 [(0x0200, 0xB4), (0x0201, 0x80), (0x0000, 0x7F)] 4 with x := 0x80 }) (fun t => t.y == 0x7F && t.pc == 0x0202 && t.cyc == 0 && t.ps == 0x24) = true := by decide
theorem witness_LdyZeroPageXResult : running { boot 0x0200 [(0x0200, 0xB4), (0x0201, 0x80), (0x0000, 0x7F)] 4 with x := 0x80 } = true ∧
    Memory.read { boot 0x0200 [(0x0200, 0xB4), (0x0201, 0x80), (0x0000, 0x7F)] 4 with x := 0x80 }.mem 0x0200 = 0xB4 := by decide

/-- R100 example. -/
theorem test_ldy_abs : next? (step (boot 0x0200 [(0x0200, 0xAC), (0x0201, 0xFF), (0x0202, 0xFF), (0xFFFF, 0x81)] 4)) (fun t => t.y == 0x81 && t.pc == 0x0203 && t.cyc == 0 && t.ps == 0xA4) = true := by decide
theorem witness_LdyAbsoluteResult : running (boot 0x0200 [(0x0200, 0xAC), (0x0201, 0xFF), (0x0202, 0xFF), (0xFFFF, 0x81)] 4) = true ∧
    Memory.read (boot 0x0200 [(0x0200, 0xAC), (0x0201, 0xFF), (0x0202, 0xFF), (0xFFFF, 0x81)] 4).mem 0x0200 = 0xAC := by decide

/-- R101 example. -/
theorem test_ldy_abs_x : next? (step { boot 0x0200 [(0x0200, 0xBC), (0x0201, 0xFF), (0x0202, 0xFF), (0x0000, 0x09)] 5 with x := 0x01 }) (fun t => t.y == 0x09 && t.pc == 0x0203 && t.cyc == 0 && t.ps == 0x24) = true := by decide
theorem witness_LdyAbsoluteXResult : running { boot 0x0200 [(0x0200, 0xBC), (0x0201, 0xFF), (0x0202, 0xFF), (0x0000, 0x09)] 5 with x := 0x01 } = true ∧
    Memory.read { boot 0x0200 [(0x0200, 0xBC), (0x0201, 0xFF), (0x0202, 0xFF), (0x0000, 0x09)] 5 with x := 0x01 }.mem 0x0200 = 0xBC := by decide

/-! ## Corners of the shared operations -/

/-- 42_lda.md R86: opcode at 0xFFFF, operand from 0x0000, pc ends at 0x0001. -/
theorem test_pc_wrap : next? (step (boot 0xFFFF [(0xFFFF, 0xA9), (0x0000, 0x7F)] 2)) (fun t => t.a == 0x7F && t.pc == 0x0001) = true := by decide
/-- 42_lda.md R90: base 0x00FE, X = 0x01: not crossed, 4 cycles. -/
theorem test_no_crossing : next? (step { boot 0x0300 [(0x0300, 0xBD), (0x0301, 0xFE)] 10 with x := 0x01 }) (fun t => t.cyc == 6) = true := by decide
/-- 95_test_vectors.md V-ABSI: base 0x1234, index 0: 4 under differs, 5 under nonzero. -/
theorem test_nonzero_rule :
    (pseudoStep ⟨.fault, .differs⟩ (boot 0x0300 [(0x0300, 0xBD), (0x0301, 0x34), (0x0302, 0x12)] 10)).cyc = 6 ∧
    (pseudoStep ⟨.fault, .nonzero⟩ (boot 0x0300 [(0x0300, 0xBD), (0x0301, 0x34), (0x0302, 0x12)] 10)).cyc = 5 := by decide
/-- 95_test_vectors.md V-RUN, largest overdraw: cost 5 from CYC = 1 leaves -4. -/
theorem test_overdraw : next? (step { boot 0x0200 [(0x0200, 0xBD), (0x0201, 0xFF)] 1 with x := 0x01 }) (fun t => t.cyc == -4 && t.a == 0x00 && t.pc == 0x0203) = true := by decide
/-- 95_test_vectors.md V-FLAGS: PS 0xFF and 0x82 before, values 0x01, 0x80, 0x00. -/
theorem test_flags : znUpdate 0x01 0xFF = 0x7D ∧ znUpdate 0x80 0xFF = 0xFD ∧ znUpdate 0x00 0x82 = 0x02 ∧ znUpdate 0x80 0x00 = 0x80 := by decide
/-- 95_test_vectors.md V-MEM. -/
theorem test_memory_words :
    Memory.readWord (Memory.write (Memory.write [] 0x0000 0x01) 0xFFFF 0x02) 0xFFFF = 0x0102 ∧
    Memory.readWord (Memory.write (Memory.writeWord [] 0x3000 0x1234) 0x3001 0x56) 0x3000 = 0x5634 ∧
    Memory.read (Memory.writeWord [] 0xFFFF 0xBEEF) 0x0000 = 0xBE := by decide
/-- Canonical form: zero entries, a wrong order and an address out of range are refused. -/
theorem test_memory_wf :
    Memory.wf [(3, 0x01), (5, 0x02)] = true ∧ Memory.wf [(5, 0x02), (3, 0x01)] = false ∧
    Memory.wf [(3, 0x00)] = false ∧ Memory.wf [(65536, 0x01)] = false := by decide
/-- 95_test_vectors.md V-FETCH: FetchWord at 0xFFFF. -/
theorem test_fetch_word :
    (fetchWord (boot 0xFFFF [(0xFFFF, 0x34), (0x0000, 0x12)] 2)).1 = 0x1234 ∧
    (fetchWord (boot 0xFFFF [(0xFFFF, 0x34), (0x0000, 0x12)] 2)).2.pc = 0x0001 ∧
    (fetchWord (boot 0xFFFF [(0xFFFF, 0x34), (0x0000, 0x12)] 2)).2.cyc = 0 := by decide
/-- 95_test_vectors.md V-UNASSIGNED: 0xA1 at 0x0600. -/
theorem test_illegal_opcode :
    next? (step (boot 0x0600 [(0x0600, 0xA1), (0x0601, 0x10)] 6))
      (fun t => t.pc == 0x0601 && t.cyc == 5 && t.a == 0x00 && t.fault == .illegalOpcode 0xA1 0x0600) = true := by decide
/-- 95_test_vectors.md V-UNASSIGNED, nop policy: reset state, Run(3) walks to 0xFFFF; here its first step. -/
theorem test_unassigned_nop : (unassignedOpcode .nop (boot 0xFFFC [] 3)) = boot 0xFFFD [] 2 := by decide
/-- 60_exceptions.md R112, R108: an idle core does not move. -/
theorem test_idle : next? (step (boot 0x0100 [(0x0100, 0xA9)] 0)) (fun t => t == boot 0x0100 [(0x0100, 0xA9)] 0) = true := by decide
/-- 95_test_vectors.md V-RESET and S3. -/
theorem test_reset : next? (hostOp .reset { boot 0x1234 [(0x0100, 0xA9)] (-2) with a := 0x12, ps := 0xFF, fault := .illegalOpcode 0xEA 0x0502 })
    (fun t => t == State.reset && t.ps == 0x24 && t.pc == 0xFFFC && t.sp == 0x01) = true := by decide
/-- 95_test_vectors.md V-RUN, budget 1: one step, CYC = -1. -/
theorem test_run_one : next? (hostRun 1 (boot 0x0400 [(0x0400, 0xA9), (0x0401, 0x11)] 0)) (fun t => t.a == 0x11 && t.pc == 0x0402 && t.cyc == -1) = true := by decide
/-- 40_fetch_execute.md R75, 60_exceptions.md R107: a run that ended by a fault is no normal end. -/
theorem test_verdict : next? (verdict { State.reset with fault := .illegalOpcode 0x00 0xFFFC }) (fun _ => true) = false := by decide
/-- 20_memory.md R48, 95_test_vectors.md V-ZP: reads 0x0200 0x0201 0x0010. -/
theorem test_reads : readsOf (.ldaZp 0x10) (boot 0x0200 [] 3) = [0x0200, 0x0201, 0x0010] ∧ costOf (.ldaZp 0x10) (boot 0x0200 [] 3) = 3 := by decide
/-- The placed instruction is the first to run after reset (log 10). -/
theorem test_placed : next? (step (State.reset.withFetchWord 16 0x7FA9)) (fun t => t.a == 0x7F && t.pc == 0xFFFE) = true := by decide
/-- 10_state.md R21: the latch as a register. -/
theorem test_latch_register :
    faultCode .none = 0 ∧ faultCode (.illegalOpcode 0xEA 0x0502) = 1 ∧
    faultOpcode (.illegalOpcode 0xEA 0x0502) = some 0xEA ∧ faultAddr (.illegalOpcode 0xEA 0x0502) = some 0x0502 := by decide

/-! ## Witnesses for the statements with hypotheses -/

/-- Opcode 0xAD: enough bytes and one too few; opcode 0xA9 with exactly enough; 0x00 unassigned. -/
theorem witness_LengthFromOpcodeAlone :
    decodeOpcode 0xAD = .assigned ⟨.a, .abs⟩ ∧ [(0xAD : Byte), 0x34].length < modeLength .abs ∧
    modeLength .abs ≤ [(0xAD : Byte), 0x34, 0x12].length ∧ decodeOpcode 0xA9 = .assigned ⟨.a, .imm⟩ ∧
    modeLength .imm ≤ [(0xA9 : Byte), 0x7F].length ∧ decodeOpcode 0x00 = .unassigned 0x00 := by decide
theorem witness_EncodeOfDecode : decode [0xAD, 0x34, 0x12, 0x00] = .instr (.ldaAbs 0x1234) [0x00] := by decide
theorem witness_NoSelfIndexing :
    decodeOpcode 0xB6 = .assigned ⟨.x, .zpi .y⟩ ∧ decodeOpcode 0xBC = .assigned ⟨.y, .absi .x⟩ := by decide
theorem witness_LoadSetsRegisterAndFlags : Dest.x ≠ Dest.a ∧ (0 ≠ 1 ∧ 0 ≠ 7) ∧ (6 ≠ 1 ∧ 6 ≠ 7) := by decide
theorem witness_FetchPrimitives : (boot 0xFFFF [] 2).pc = 0xFFFF := by decide
/-- Either side of the page-crossing boundary, and of the top of memory. -/
theorem witness_PageCrossingPredicate :
    pageCrossed .differs 0x00FF (eaAbsIdx 0x00FF 0x01) = true ∧ pageCrossed .differs 0x00FF (eaAbsIdx 0x00FF 0x00) = false ∧
    pageCrossed .differs 0xFFFF (eaAbsIdx 0xFFFF 0x01) = true ∧ pageCrossed .nonzero 0xFFFF (eaAbsIdx 0xFFFF 0x01) = false ∧
    pageCrossed .nonzero 0x0100 (eaAbsIdx 0x0100 0x00) = true := by decide

/-- A running state with LDA #0x7F at pc, and the state after its step. -/
def ready : State := boot 0x0100 [(0x0100, 0xA9), (0x0101, 0x7F)] 2
def done : State := { ready with a := 0x7F, pc := 0x0102, cyc := 0 }
/-- A running state with an unassigned opcode at pc, and the faulted state after its step. -/
def doomed : State := boot 0x0600 [(0x0600, 0xA1)] 6
def stuck : State := { doomed with pc := 0x0601, cyc := 5, fault := .illegalOpcode 0xA1 0x0600 }

theorem ready_running : running ready = true := by decide
theorem ready_step : step ready = .next done := by rfl
theorem doomed_step : step doomed = .next stuck := by rfl
theorem done_idle : running done = false := by decide
theorem stuck_idle : running stuck = false ∧ stuck.fault ≠ .none := by decide

theorem witness_StepRunsDecodedInstruction :
    running ready = true ∧
    decode [Memory.read ready.mem ready.pc, Memory.read ready.mem (ready.pc + 1), Memory.read ready.mem (ready.pc + 2)] =
      .instr (.ldaImm 0x7F) [0x00] := by decide
/-- Enabled at the boundary CYC = 1; not enabled at CYC = 0, and with the latch set. -/
theorem witness_StepEnabledIff :
    (0 < (boot 0x0100 [] 1).cyc ∧ (boot 0x0100 [] 1).fault = .none) ∧
    ¬ (0 < (boot 0x0100 [] 0).cyc ∧ (boot 0x0100 [] 0).fault = .none) ∧
    ¬ (0 < stuck.cyc ∧ stuck.fault = .none) := by decide
/-- A step that runs an instruction, one that runs none, and an idle one. -/
theorem witness_StepFrame :
    step ready = .next done ∧ fetchInstr ready = some (.ldaImm 0x7F) ∧
    step doomed = .next stuck ∧ fetchInstr doomed = none ∧ step done = .next done := ⟨rfl, rfl, rfl, rfl, rfl⟩
theorem witness_FlagsFromLoadedByte : exec (.ldaImm 0x7F) ready = .next done := rfl
theorem witness_LoadedByteFromEffectiveAddress :
    fetchInstr ready = some (.ldaImm 0x7F) ∧
    fetchInstr (boot 0x0200 [(0x0200, 0xA5), (0x0201, 0x10)] 3) = some (.ldaZp 0x10) := by decide
theorem witness_StepCostBounds :
    running ready = true ∧ running doomed = true ∧
    decodeOpcode (Memory.read doomed.mem doomed.pc) = .unassigned (Memory.read doomed.mem doomed.pc) := by decide
theorem witness_IllegalOpcodeEntry :
    running doomed = true ∧
    decodeOpcode (Memory.read doomed.mem doomed.pc) = .unassigned (Memory.read doomed.mem doomed.pc) := by decide
theorem witness_UnassignedOpcodeAsNop :
    decodeOpcode (Memory.read doomed.mem doomed.pc) = .unassigned (Memory.read doomed.mem doomed.pc) := by decide
theorem witness_StepRefinesPseudocode : running ready = true ∧ running doomed = true := by decide
theorem witness_StepKeepsInv : Inv ready ∧ step ready = .next done ∧ Inv doomed ∧ step doomed = .next stuck :=
  ⟨⟨rfl, trivial⟩, rfl, ⟨rfl, trivial⟩, rfl⟩
/-- A write, and a run that faults. -/
theorem witness_HostOperationsKeepInv :
    Inv done ∧ hostOp (.writeByte 0x0010 0xFF) done = .next { done with mem := Memory.write done.mem 0x0010 0xFF } ∧
    Inv { doomed with cyc := 0 } ∧ hostOp (.run 6) { doomed with cyc := 0 } = .next stuck :=
  ⟨⟨rfl, trivial⟩, rfl, ⟨rfl, trivial⟩, rfl⟩
/-- The lowest counter of a run, and the lowest of the narrowest width, by an idle step. -/
theorem witness_CounterBounds :
    step ready = .next done ∧ -4 ≤ ready.cyc ∧ step (boot 0x0100 [] (-8)) = .next (boot 0x0100 [] (-8)) ∧
    -(2 ^ (4 - 1) : Int) ≤ (boot 0x0100 [] (-8)).cyc := ⟨rfl, by decide, rfl, by decide⟩
theorem witness_StepDependsOnlyOnItsReads :
    running ready = true ∧ fetchInstr ready = some (.ldaImm 0x7F) ∧
    (∀ a ∈ readsOf (.ldaImm 0x7F) ready,
      Memory.read (Memory.write ready.mem 0x0500 0x33) a = Memory.read ready.mem a) ∧
    step ready = .next done := by
  have h : (readsOf (.ldaImm 0x7F) ready).all
      (fun a => Memory.read (Memory.write ready.mem 0x0500 0x33) a == Memory.read ready.mem a) = true := by decide
  exact ⟨by decide, by decide, fun a ha => eq_of_beq (List.all_eq_true.mp h a ha), rfl⟩
theorem witness_StepIgnoresFlagsAndSp : step ready = .next done := rfl
theorem witness_StepCommutesWithMoreBudget : running ready = true ∧ step ready = .next done := ⟨by decide, rfl⟩
/-- A normal end and an end by fault. -/
theorem witness_RunEndCounter :
    (0 : Int) < 1 ∧ ready.fault = .none ∧ hostRun 1 ready = .next { done with cyc := -1 } ∧
    (0 : Int) < 6 ∧ doomed.fault = .none ∧ hostRun 6 doomed = .next stuck := ⟨by decide, rfl, rfl, by decide, rfl, rfl⟩
theorem witness_RunWithoutStep : (0 : Int) ≤ 0 ∧ stuck.fault ≠ .none := by decide
theorem witness_OverdraftPaidInAdvance :
    (0 : Int) < 1 ∧ hostRun 1 ready = .next { done with cyc := -1 } ∧ ({ done with cyc := -1 } : State).cyc ≤ 0 ∧ done.fault = .none :=
  ⟨by decide, rfl, by decide, rfl⟩
theorem witness_RunFrame : hostRun 2 ready = .next done := rfl
theorem witness_ResetPsForEveryLayout : psLayoutValid psLayout = true ∧
    psLayoutValid { carry := 6, irqDisable := 0, decimalMode := 2, brk := 3, unused := 4, overflow := 5 } = true := by decide
theorem witness_ResetFromAnyIdleState : running stuck = false ∧ running done = false := by decide
theorem witness_FaultLatchIsSticky : stuck.fault ≠ .none := by decide
theorem witness_HostActsOnlyWhileIdle : running ready = true ∧ running done = false := by decide
theorem witness_HostWriteByteThenRead : Inv done ∧ running done = false ∧ (0x0000 : Addr) ≠ 0xFFFF :=
  ⟨⟨rfl, trivial⟩, rfl, by decide⟩
/-- At the top of memory: the second byte is at 0x0000, and 0x0001 is neither. -/
theorem witness_HostWriteWordThenRead :
    Inv done ∧ running done = false ∧ (0xFFFF : Addr) + 1 = 0x0000 ∧ (0x0001 : Addr) ≠ 0xFFFF ∧ (0x0001 : Addr) ≠ 0xFFFF + 1 :=
  ⟨⟨rfl, trivial⟩, rfl, by decide, by decide, by decide⟩
theorem witness_HostInitZeroesMemory : running done = false := by decide
theorem witness_HostWritesEachRegister : running done = false := by decide

end Sys2Proof.Tests
end

section
/-! What one instruction and one step do, said as equations; what a run keeps; for the statements about the state. -/

namespace Sys2Proof.Proofs

open Sys2Proof.Machine Sys2Proof.Safety

/-! ## Encoding: the per-instruction law, and the opcode rows -/

/-- The per-instruction law of Laws/PerInstr.lean, for every instruction. -/
theorem encoding_law : ∀ i : Instr, Laws.Encoding.Statement i
  | .ldaImm o => Laws.Encoding.ldaImm o
  | .ldaZp o => Laws.Encoding.ldaZp o
  | .ldaZpX o => Laws.Encoding.ldaZpX o
  | .ldaAbs o => Laws.Encoding.ldaAbs o
  | .ldaAbsX o => Laws.Encoding.ldaAbsX o
  | .ldaAbsY o => Laws.Encoding.ldaAbsY o
  | .ldxImm o => Laws.Encoding.ldxImm o
  | .ldxZp o => Laws.Encoding.ldxZp o
  | .ldxZpY o => Laws.Encoding.ldxZpY o
  | .ldxAbs o => Laws.Encoding.ldxAbs o
  | .ldxAbsY o => Laws.Encoding.ldxAbsY o
  | .ldyImm o => Laws.Encoding.ldyImm o
  | .ldyZp o => Laws.Encoding.ldyZp o
  | .ldyZpX o => Laws.Encoding.ldyZpX o
  | .ldyAbs o => Laws.Encoding.ldyAbs o
  | .ldyAbsX o => Laws.Encoding.ldyAbsX o

theorem encode_length (i : Instr) : (encode i).length = instrLength i := by
  obtain ⟨-, hlen, -⟩ := encoding_law i
  exact hlen

/-- An assigned opcode comes from a row of 30_encoding.md R54, and every row's form is one of the 16. -/
theorem decodeOpcode_wellFormed {b : Byte} {f : Form} (h : decodeOpcode b = .assigned f) : f.wellFormed = true := by
  have rows : ∀ r ∈ opcodeTable, r.form.wellFormed = true := List.all_eq_true.mp rfl
  unfold decodeOpcode at h
  split at h
  next r hr =>
    cases h
    exact rows r (List.mem_of_find?_eq_some hr)
  next => cases h

/-- A fetch finds no instruction only over an unassigned opcode byte (30_encoding.md R62). -/
theorem decodeOpcode_of_fetchInstr_none {s : State} (h : fetchInstr s = none) :
    decodeOpcode (Memory.read s.mem s.pc) = .unassigned (Memory.read s.mem s.pc) := by
  unfold fetchInstr decode3 at h
  split at h
  next r hr => split at h <;> cases h
  next hr => simp [decodeOpcode, hr]

/-! ## The destination register and the load -/

@[simp] theorem destReg_load_same (d : Dest) (v : Byte) (s : State) : destReg (load d v s) d = v := by
  cases d <;> rfl

theorem destReg_load_other {d d' : Dest} (v : Byte) (s : State) (h : d' ≠ d) :
    destReg (load d v s) d' = destReg s d' := by
  cases d' <;> simp [destReg, h.symm]

/-! ## One instruction -/

/-- The operand byte of an immediate form; no other form has one as its data. -/
def immediateByte (i : Instr) : Byte :=
  match i with
  | .ldaImm v => v
  | .ldxImm v => v
  | .ldyImm v => v
  | _ => 0

/-- The byte an instruction loads: the one at its effective address, else its operand byte (41_addressing_modes.md R76). -/
def loadedByte (i : Instr) (s : State) : Byte :=
  match effectiveAddress i s with
  | some ea => Memory.read s.mem ea
  | none => immediateByte i

/-- The state after an instruction; `exec_eq` ties it to `exec`. -/
def afterInstr (i : Instr) (s : State) : State :=
  { load (formOf i).dest (loadedByte i s) s with
    pc := s.pc + BitVec.ofNat 16 (instrLength i)
    cyc := s.cyc - (costOf i s : Int) }

@[simp] theorem afterInstr_pc (i : Instr) (s : State) :
    (afterInstr i s).pc = s.pc + BitVec.ofNat 16 (instrLength i) := rfl
@[simp] theorem afterInstr_cyc (i : Instr) (s : State) : (afterInstr i s).cyc = s.cyc - (costOf i s : Int) := rfl
@[simp] theorem afterInstr_sp (i : Instr) (s : State) : (afterInstr i s).sp = s.sp := load_sp ..
@[simp] theorem afterInstr_ps (i : Instr) (s : State) : (afterInstr i s).ps = znUpdate (loadedByte i s) s.ps := load_ps ..
@[simp] theorem afterInstr_fault (i : Instr) (s : State) : (afterInstr i s).fault = s.fault := load_fault ..
@[simp] theorem afterInstr_mem (i : Instr) (s : State) : (afterInstr i s).mem = s.mem := load_mem ..

@[simp] theorem destReg_afterInstr_same (i : Instr) (s : State) :
    destReg (afterInstr i s) (formOf i).dest = loadedByte i s :=
  destReg_load_same (formOf i).dest (loadedByte i s) s

theorem destReg_afterInstr_other {i : Instr} {d : Dest} (s : State) (h : d ≠ (formOf i).dest) :
    destReg (afterInstr i s) d = destReg s d :=
  destReg_load_other (loadedByte i s) s h

/-- What every instruction does, as an equation: `exec_shape` with the byte named for the immediate forms as well. -/
theorem exec_eq (i : Instr) (s : State) : exec i s = .next (afterInstr i s) := by
  cases hea : effectiveAddress i s with
  | some ea =>
    obtain ⟨v, hv, hexec⟩ := exec_shape i s
    rw [hexec, hv ea hea, afterInstr, loadedByte, hea]
  | none =>
    cases i with
    | ldaImm v => exact commit_shape _ _ s _ _ (resolveImm_state v s)
    | ldxImm v => exact commit_shape _ _ s _ _ (resolveImm_state v s)
    | ldyImm v => exact commit_shape _ _ s _ _ (resolveImm_state v s)
    | _ => cases hea

theorem eq_afterInstr_of_exec {i : Instr} {s t : State} (h : exec i s = .next t) : t = afterInstr i s := by
  rw [exec_eq] at h
  cases h
  rfl

/-- At most three bytes of its own and one data byte (20_memory.md R48). -/
theorem readsOf_length_le_four (i : Instr) (s : State) : (readsOf i s).length ≤ 4 := by
  cases i <;> simp [readsOf, addrsFrom, effectiveAddress, instrLength, formOf, modeLength]

/-- One cycle for the zero-page sum or for a page crossing, never both (40_fetch_execute.md R64). -/
theorem extraCharge_le_one (i : Instr) (s : State) : extraCharge i s ≤ 1 := by
  cases i with
  | ldaAbsX | ldaAbsY | ldxAbsY | ldyAbsX => exact Bool.toNat_le _
  | _ => simp [extraCharge]

/-- No instruction costs more than five cycles (40_fetch_execute.md R73). -/
theorem costOf_le_five (i : Instr) (s : State) : costOf i s ≤ 5 :=
  Nat.add_le_add (readsOf_length_le_four i s) (extraCharge_le_one i s)

/-! ## One step -/

@[simp] theorem unassignedOpcode_fault (s : State) :
    unassignedOpcode .fault s = raiseIllegalOpcode (Memory.read s.mem s.pc) s.pc (passByte s) := rfl

/-- Everything a step can do, with the next state written out: `step_cases` through `exec_eq`. -/
theorem step_outcome {s t : State} (h : step s = .next t) :
    (running s = false ∧ t = s) ∨
    (running s = true ∧ ∃ i, fetchInstr s = some i ∧ t = afterInstr i s) ∨
    (running s = true ∧ fetchInstr s = none ∧
      t = raiseIllegalOpcode (Memory.read s.mem s.pc) s.pc (passByte s)) := by
  obtain ⟨hr, rfl⟩ | ⟨hr, i, hi, hexec⟩ | ⟨hr, hi, rfl⟩ := step_cases s t h
  · exact .inl ⟨hr, rfl⟩
  · exact .inr (.inl ⟨hr, i, hi, eq_afterInstr_of_exec hexec⟩)
  · exact .inr (.inr ⟨hr, hi, rfl⟩)

/-- Nothing a step does stores (20_memory.md R39). -/
theorem step_mem {s t : State} (h : step s = .next t) : t.mem = s.mem := by
  obtain ⟨-, rfl⟩ | ⟨-, i, -, rfl⟩ | ⟨-, -, rfl⟩ := step_outcome h <;> simp

theorem step_sp {s t : State} (h : step s = .next t) : t.sp = s.sp := by
  obtain ⟨-, rfl⟩ | ⟨-, i, -, rfl⟩ | ⟨-, -, rfl⟩ := step_outcome h <;> simp

/-- Only bits 1 and 7 of PS are ever written (10_state.md R19). -/
theorem step_ps_getLsbD {s t : State} (h : step s = .next t) {k : Nat} (h1 : k ≠ 1) (h7 : k ≠ 7) :
    t.ps.getLsbD k = s.ps.getLsbD k := by
  obtain ⟨-, rfl⟩ | ⟨-, i, -, rfl⟩ | ⟨-, -, rfl⟩ := step_outcome h <;> simp [znUpdate_getLsbD, h1, h7]

/-- A step that moves CYC starts from CYC > 0 and takes at most five off it (40_fetch_execute.md R71). -/
theorem step_cyc {s t : State} (h : step s = .next t) : t.cyc = s.cyc ∨ (-4 ≤ t.cyc ∧ t.cyc ≤ s.cyc) := by
  obtain ⟨-, rfl⟩ | ⟨hr, i, -, rfl⟩ | ⟨hr, -, rfl⟩ := step_outcome h
  · exact .inl rfl
  · have hcost := costOf_le_five i s
    obtain ⟨hpos, -⟩ := (running_iff s).mp hr
    right
    rw [afterInstr_cyc]
    omega
  · obtain ⟨hpos, -⟩ := (running_iff s).mp hr
    right
    simp only [raiseIllegalOpcode_cyc, passByte_cyc]
    omega

/-- Memory and the latch are all that the invariant speaks of; the latch is written from an unassigned byte alone. -/
theorem step_keeps_inv {s t : State} (hinv : Inv s) (h : step s = .next t) : Inv t := by
  obtain ⟨hwf, hlatch⟩ := hinv
  refine ⟨step_mem h ▸ hwf, ?_⟩
  obtain ⟨-, rfl⟩ | ⟨-, i, -, rfl⟩ | ⟨-, hi, rfl⟩ := step_outcome h
  · exact hlatch
  · rw [afterInstr_fault]
    exact hlatch
  · exact decodeOpcode_of_fetchInstr_none hi

/-! ## Other values of PS and SP -/

theorem effectiveAddress_with_ps_sp (i : Instr) (s : State) (p q : Byte) :
    effectiveAddress i { s with ps := p, sp := q } = effectiveAddress i s := by cases i <;> rfl

theorem loadedByte_with_ps_sp (i : Instr) (s : State) (p q : Byte) :
    loadedByte i { s with ps := p, sp := q } = loadedByte i s := by
  simp only [loadedByte, effectiveAddress_with_ps_sp]

theorem costOf_with_ps_sp (i : Instr) (s : State) (p q : Byte) :
    costOf i { s with ps := p, sp := q } = costOf i s := by cases i <;> rfl

/-- An instruction reads neither PS nor SP, so putting them back gives what it would have answered. -/
theorem afterInstr_with_ps_sp (i : Instr) (s : State) (p q : Byte) :
    { afterInstr i { s with ps := p, sp := q } with ps := (afterInstr i s).ps, sp := (afterInstr i s).sp } =
      afterInstr i s := by
  simp only [afterInstr, loadedByte_with_ps_sp, costOf_with_ps_sp]
  cases (formOf i).dest <;> rfl

/-! ## A run -/

/-- What every step keeps, every number of steps of the execute loop keeps. -/
theorem executeFor_keeps {P : State → Prop} (hstep : ∀ s t, P s → step s = .next t → P t)
    {n : Nat} {s t : State} (h : executeFor n s = .next t) (hs : P s) : P t := by
  induction n generalizing s with
  | zero =>
    cases h
    exact hs
  | succ n ih =>
    unfold executeFor at h
    split at h
    · split at h
      next u hu => exact ih h (hstep s u hs hu)
      next => cases h
      next => cases h
    · cases h
      exact hs

/-- What loading CYC and every step keep, a run of any budget keeps (70_reset_and_hazards.md R119). -/
theorem hostRun_keeps {P : State → Prop} (hstep : ∀ s t, P s → step s = .next t → P t)
    {budget : Int} {s t : State} (h : hostRun budget s = .next t) (hs : P { s with cyc := budget }) : P t :=
  executeFor_keeps hstep h hs

/-- The six storage bits agree when the bits other than 1 and 7 do. -/
theorem storageBits_congr {p q : Byte} (h : ∀ k, k ≠ 1 → k ≠ 7 → p.getLsbD k = q.getLsbD k) :
    storageBits p = storageBits q := by
  apply BitVec.eq_of_getLsbD_eq
  intro k hk
  simp only [storageBits, BitVec.getLsbD_and]
  by_cases hzn : k = 1 ∨ k = 7
  · rcases hzn with rfl | rfl <;> simp
  · rw [h k (fun e => hzn (.inl e)) (fun e => hzn (.inr e))]

/-- What no step changes: memory, SP and the six storage flags (10_state.md R13, R19). -/
def SameStorage (s t : State) : Prop := t.mem = s.mem ∧ t.sp = s.sp ∧ storageBits t.ps = storageBits s.ps

theorem step_keeps_sameStorage (r s t : State) (hrs : SameStorage r s) (h : step s = .next t) : SameStorage r t := by
  obtain ⟨hmem, hsp, hps⟩ := hrs
  exact ⟨(step_mem h).trans hmem, (step_sp h).trans hsp,
    (storageBits_congr fun _ h1 h7 => step_ps_getLsbD h h1 h7).trans hps⟩

/-! ## The host -/

theorem hostOp_of_idle (op : HostOp) {s : State} (h : running s = false) : hostOp op s = hostEffect op s := by
  simp [hostOp, h]

/-- A host operation that answers found the core idle (70_reset_and_hazards.md R121). -/
theorem hostEffect_of_hostOp {op : HostOp} {s t : State} (h : hostOp op s = .next t) : hostEffect op s = .next t := by
  unfold hostOp at h
  split at h
  · cases h
  · exact h

theorem reset_inv : Inv State.reset := ⟨nil_wf, trivial⟩

end Sys2Proof.Proofs
end

section
/-! The statements about the state, each assembled from the facts above. -/

namespace Sys2Proof.Proofs

open Sys2Proof.Machine Sys2Proof.Safety

/-- Settles O39: no step stores, and the latch is written only from a byte that fetches no instruction. -/
theorem stepKeepsInv : Obligations.StepKeepsInv := by
  unfold Obligations.StepKeepsInv
  intro s t hinv h
  exact step_keeps_inv hinv h

/-- Settles O41: by the kind of the operation; a run by induction over its steps, each of which keeps the invariant. -/
theorem hostOperationsKeepInv : Obligations.HostOperationsKeepInv := by
  unfold Obligations.HostOperationsKeepInv
  intro op s t hinv hop
  have h := hostEffect_of_hostOp hop
  obtain ⟨hwf, hlatch⟩ := hinv
  cases op with
  | run budget => exact hostRun_keeps (fun _ _ => step_keeps_inv) h ⟨hwf, hlatch⟩
  | reset => cases h; exact reset_inv
  | init => cases h; exact ⟨nil_wf, hlatch⟩
  | writeByte a v => cases h; exact ⟨write_wf s.mem a v hwf, hlatch⟩
  | writeWord a w => cases h; exact ⟨writeWord_wf s.mem a w hwf, hlatch⟩
  | setPc | setSp | setA | setX | setY | setPs => cases h; exact ⟨hwf, hlatch⟩

/-- Settles O29, from the frame of each of the three things a step can do. -/
theorem stepFrame : Obligations.StepFrame := by
  unfold Obligations.StepFrame
  intro s t h
  refine ⟨step_mem h, step_sp h, fun k => step_ps_getLsbD h, ?_⟩
  obtain ⟨-, rfl⟩ | ⟨-, i, hi, rfl⟩ | ⟨-, hi, rfl⟩ := step_outcome h
  · cases fetchInstr t <;> exact ⟨by intros; rfl, rfl⟩
  · rw [hi]
    exact ⟨fun d hd => destReg_afterInstr_other s hd, afterInstr_fault i s⟩
  · rw [hi]
    exact ⟨fun d => by cases d <;> rfl, rfl⟩

/-- Settles O30: the destination holds the loaded byte, and the flag formula reads that byte alone. -/
theorem flagsFromLoadedByte : Obligations.FlagsFromLoadedByte := by
  unfold Obligations.FlagsFromLoadedByte
  intro i s t h
  obtain rfl := eq_afterInstr_of_exec h
  rw [destReg_afterInstr_same, afterInstr_ps, znUpdate_getLsbD, znUpdate_getLsbD]
  exact ⟨rfl, rfl⟩

/-- Settles O32: pc advances by the mode's length, which is the length of the encoding. -/
theorem pcAdvancesByLength : Obligations.PcAdvancesByLength := by
  unfold Obligations.PcAdvancesByLength
  intro i s
  refine ⟨afterInstr i s, exec_eq i s, ?_⟩
  rw [afterInstr_pc, encode_length, BitVec.toNat_add, BitVec.toNat_ofNat, Nat.add_mod_mod]

/-- Settles O42: a step that moves CYC leaves it at least -4, which every width of 4 bits or more holds. -/
theorem counterBounds : Obligations.CounterBounds := by
  unfold Obligations.CounterBounds
  intro s t h
  have hcyc := step_cyc h
  refine ⟨by omega, by omega, fun w hw hs => ?_⟩
  have hpow : (2 : Int) ^ 3 ≤ 2 ^ (w - 1) := by
    exact_mod_cast Nat.pow_le_pow_right Nat.two_pos (show 3 ≤ w - 1 by omega)
  omega

/-- Settles O44: the three things a step can do, each with the other PS and SP; the run state and the fetch are the same
by definition, since neither reads them. -/
theorem stepIgnoresFlagsAndSp : Obligations.StepIgnoresFlagsAndSp := by
  unfold Obligations.StepIgnoresFlagsAndSp
  intro s t p q h
  obtain ⟨hr, rfl⟩ | ⟨hr, i, hi, rfl⟩ | ⟨hr, hi, rfl⟩ := step_outcome h
  · exact ⟨_, step_of_idle { t with ps := p, sp := q } hr, rfl, rfl⟩
  · have hstep : step { s with ps := p, sp := q } = .next (afterInstr i { s with ps := p, sp := q }) :=
      (step_of_instr { s with ps := p, sp := q } i hr hi).trans (exec_eq i _)
    exact ⟨_, hstep, afterInstr_sp i _, afterInstr_with_ps_sp i s p q⟩
  · exact ⟨_, step_of_unassigned { s with ps := p, sp := q } hr hi, rfl, rfl⟩

/-- Settles O50: by induction over the steps of the run, from the frame of one step. -/
theorem runFrame : Obligations.RunFrame := by
  unfold Obligations.RunFrame
  intro budget s t h
  exact hostRun_keeps (step_keeps_sameStorage s) h ⟨rfl, rfl, rfl⟩

/-- Settles O6: the five forms that index by their own destination, or by the missing register, are not well formed. -/
theorem noSelfIndexing : Obligations.NoSelfIndexing := by
  unfold Obligations.NoSelfIndexing
  intro b d i h
  have hwf : Form.wellFormed ⟨d, .zpi i⟩ = true ∨ Form.wellFormed ⟨d, .absi i⟩ = true :=
    h.imp decodeOpcode_wellFormed decodeOpcode_wellFormed
  constructor
  · rintro ⟨rfl, rfl⟩
    exact absurd hwf (by decide)
  · rintro ⟨rfl, rfl⟩
    exact absurd hwf (by decide)

/-- Settles O40: empty memory is canonical, and the latch is none. -/
theorem resetMeetsInv : Obligations.ResetMeetsInv := reset_inv

/-- Settles O51: PS flag by flag, memory by the reads of the empty list, the rest as written. -/
theorem resetState : Obligations.ResetState := by
  unfold Obligations.ResetState
  refine ⟨rfl, rfl, rfl, rfl, rfl, ?_, nil_read, rfl, rfl⟩
  intro f
  cases f <;> rfl

/-- Settles O59: on an idle core a host operation is its effect. -/
theorem hostWritesEachRegister : Obligations.HostWritesEachRegister := by
  unfold Obligations.HostWritesEachRegister
  intro s w v hr
  exact ⟨hostOp_of_idle _ hr, hostOp_of_idle _ hr, hostOp_of_idle _ hr, hostOp_of_idle _ hr, hostOp_of_idle _ hr,
    hostOp_of_idle _ hr⟩

end Sys2Proof.Proofs
end

section
/-! Memory as the host and as one instruction see it: what a word write leaves to be read, what a fetch and an instruction
depend on. -/

namespace Sys2Proof.Proofs

open Sys2Proof.Machine Sys2Proof.Safety

/-! ## A word in memory -/

/-- The low byte of a written word lies at the address itself, also where the high byte wraps to 0x0000 (20_memory.md R32). -/
theorem read_writeWord_low {m : Memory} (a w : Addr) (h : Memory.wf m = true) :
    Memory.read (Memory.writeWord m a w) a = lowByte w :=
  (read_write_other _ _ _ _ (succ_ne a).symm (write_wf m a _ h)).trans (read_write_same m a _ h)

theorem read_writeWord_high {m : Memory} (a w : Addr) (h : Memory.wf m = true) :
    Memory.read (Memory.writeWord m a w) (a + 1) = highByte w :=
  read_write_same _ _ _ (write_wf m a _ h)

theorem read_writeWord_other {m : Memory} {a b : Addr} (w : Addr) (h : Memory.wf m = true) (hlo : b ≠ a) (hhi : b ≠ a + 1) :
    Memory.read (Memory.writeWord m a w) b = Memory.read m b :=
  (read_write_other _ _ _ _ hhi (write_wf m a _ h)).trans (read_write_other m a b _ hlo h)

theorem readWord_writeWord {m : Memory} (a w : Addr) (h : Memory.wf m = true) :
    Memory.readWord (Memory.writeWord m a w) a = w := by
  rw [Memory.readWord, read_writeWord_low a w h, read_writeWord_high a w h, joinBytes_split]

theorem lowByte_ofNat (w : Addr) : lowByte w = BitVec.ofNat 8 (w.toNat % 256) := by
  rw [← lowByte_toNat, BitVec.ofNat_toNat, BitVec.setWidth_eq]

theorem highByte_ofNat (w : Addr) : highByte w = BitVec.ofNat 8 (w.toNat / 256) := by
  rw [← highByte_toNat, BitVec.ofNat_toNat, BitVec.setWidth_eq]

/-- The address after `a`, as a number (20_memory.md R32). -/
theorem succ_ofNat (a : Addr) : a + 1 = BitVec.ofNat 16 ((a.toNat + 1) % 65536) := by
  apply BitVec.eq_of_toNat_eq
  simp [BitVec.toNat_add]

/-! ## The host's reads -/

theorem hostQuery_of_idle (q : HostQuery) {s : State} (h : running s = false) : hostQuery q s = some (hostRead q s) := by
  simp [hostQuery, h]

/-- A query of an idle core answers whatever memory it holds: CYC and FAULT alone say that it is idle. -/
theorem hostQuery_with_mem (q : HostQuery) {s : State} (h : running s = false) (m : Memory) :
    hostQuery q { s with mem := m } = some (hostRead q { s with mem := m }) :=
  hostQuery_of_idle (s := { s with mem := m }) q h

/-! ## The addresses an instruction reads -/

theorem two_le_instrLength (i : Instr) : 2 ≤ instrLength i := by
  unfold instrLength
  cases (formOf i).mode <;> simp [modeLength]

/-- An instruction reads its own bytes (20_memory.md R48). -/
theorem ownByte_mem_readsOf {i : Instr} (s : State) {k : Nat} (h : k < instrLength i) :
    s.pc + BitVec.ofNat 16 k ∈ readsOf i s :=
  List.mem_append_left _ (List.mem_map_of_mem (List.mem_range.mpr h))

/-- An instruction reads the byte at its effective address (20_memory.md R48). -/
theorem effectiveAddress_mem_readsOf {i : Instr} {s : State} {ea : Addr} (h : effectiveAddress i s = some ea) :
    ea ∈ readsOf i s :=
  List.mem_append_right _ (by simp [h])

/-! ## Another memory that agrees on the reads -/

/-- A row whose operand is two bytes makes an instruction of three. -/
theorem instrLength_of_word_row {r : OpcodeRow} {mk : Addr → Instr} (hr : r ∈ opcodeTable) (hmk : r.operand = .word mk)
    (w : Addr) : instrLength (mk w) = 3 := by
  have rows : ∀ r ∈ opcodeTable, ∀ mk, r.operand = .word mk → instrLength (mk w) = 3 := by
    simp [opcodeTable, instrLength, formOf, modeLength]
  exact rows r hr mk hmk

/-- Decoding looks at the third byte only where the instruction has three (30_encoding.md R52). -/
theorem decode3_congr {b0 b1 b2 c2 : Byte} {i : Instr} (h : decode3 b0 b1 b2 = some i)
    (hthird : 2 < instrLength i → c2 = b2) : decode3 b0 b1 c2 = some i := by
  unfold decode3 at h ⊢
  cases hrow : findRow b0 with
  | none => simp [hrow] at h
  | some r =>
    cases hop : r.operand with
    | byte mk => simpa [hrow, hop] using h
    | word mk =>
      simp only [hrow, hop, Option.some.injEq] at h ⊢
      subst h
      rw [hthird (by rw [instrLength_of_word_row (List.mem_of_find?_eq_some hrow) hop]; decide)]

/-- A fetch depends on the bytes of the instruction it finds and on no other. -/
theorem fetchInstr_with_mem {s : State} {i : Instr} {m : Memory} (h : fetchInstr s = some i)
    (hm : ∀ a ∈ readsOf i s, Memory.read m a = Memory.read s.mem a) : fetchInstr { s with mem := m } = some i := by
  have hown (k : Nat) (hk : k < instrLength i) :
      Memory.read m (s.pc + BitVec.ofNat 16 k) = Memory.read s.mem (s.pc + BitVec.ofNat 16 k) :=
    hm _ (ownByte_mem_readsOf s hk)
  have hlen := two_le_instrLength i
  have h0 : Memory.read m s.pc = Memory.read s.mem s.pc := by simpa using hown 0 (by omega)
  have h1 : Memory.read m (s.pc + 1) = Memory.read s.mem (s.pc + 1) := hown 1 (by omega)
  change decode3 (Memory.read m s.pc) (Memory.read m (s.pc + 1)) (Memory.read m (s.pc + 2)) = some i
  rw [h0, h1]
  exact decode3_congr h (hown 2)

theorem effectiveAddress_with_mem (i : Instr) (s : State) (m : Memory) :
    effectiveAddress i { s with mem := m } = effectiveAddress i s := by cases i <;> rfl

theorem costOf_with_mem (i : Instr) (s : State) (m : Memory) : costOf i { s with mem := m } = costOf i s := by
  cases i <;> rfl

theorem loadedByte_with_mem {i : Instr} {s : State} {m : Memory}
    (hm : ∀ a ∈ readsOf i s, Memory.read m a = Memory.read s.mem a) :
    loadedByte i { s with mem := m } = loadedByte i s := by
  unfold loadedByte
  rw [effectiveAddress_with_mem]
  cases hea : effectiveAddress i s with
  | none => rfl
  | some ea => exact hm ea (effectiveAddress_mem_readsOf hea)

theorem afterInstr_with_mem {i : Instr} {s : State} {m : Memory}
    (hm : ∀ a ∈ readsOf i s, Memory.read m a = Memory.read s.mem a) :
    afterInstr i { s with mem := m } = { afterInstr i s with mem := m } := by
  simp only [afterInstr, loadedByte_with_mem hm, costOf_with_mem]
  cases (formOf i).dest <;> rfl

end Sys2Proof.Proofs
end

section
/-! The statements about memory, each assembled from the facts above. -/

namespace Sys2Proof.Proofs

open Sys2Proof.Machine Sys2Proof.Safety

/-- Settles O33: CYC falls by the cost, which is the reads and the extra charge by definition. The counts are computed
instruction by instruction; only the absolute indexed ones have a charge that depends on the state. -/
theorem cycleCosts : Obligations.CycleCosts := by
  unfold Obligations.CycleCosts
  intro i s
  have hcyc : s.cyc - (afterInstr i s).cyc = ((readsOf i s).length : Int) + (extraCharge i s : Int) := by
    rw [afterInstr_cyc, costOf]
    omega
  refine ⟨afterInstr i s, exec_eq i s, hcyc, ?_⟩
  cases i with
  | ldaAbsX | ldaAbsY | ldxAbsY | ldyAbsX => exact And.intro rfl (extraCharge_le_one _ s)
  | _ => exact And.intro rfl rfl

/-- Settles O43: the other memory gives the same instruction, and that instruction loads the same byte. -/
theorem stepDependsOnlyOnItsReads : Obligations.StepDependsOnlyOnItsReads := by
  unfold Obligations.StepDependsOnlyOnItsReads
  intro s t i m hr hi hm h
  rw [step_of_instr s i hr hi] at h
  obtain rfl := eq_afterInstr_of_exec h
  rw [step_of_instr { s with mem := m } i hr (fetchInstr_with_mem hi hm), exec_eq, afterInstr_with_mem hm]

/-- Settles O56, from the laws of a read after a write to the same and to another address. -/
theorem hostWriteByteThenRead : Obligations.HostWriteByteThenRead := by
  unfold Obligations.HostWriteByteThenRead
  intro s a v hinv hr
  obtain ⟨hwf, -⟩ := hinv
  refine ⟨{ s with mem := Memory.write s.mem a v }, hostOp_of_idle _ hr, ?_, fun b hb => ?_, rfl⟩
  · rw [hostQuery_with_mem _ hr, hostRead, read_write_same s.mem a v hwf]
  · rw [hostQuery_with_mem _ hr, hostQuery_of_idle _ hr, hostRead, hostRead, read_write_other s.mem a b v hb hwf]

/-- Settles O57: the two bytes of the word at two different addresses, also at the top of memory. -/
theorem hostWriteWordThenRead : Obligations.HostWriteWordThenRead := by
  unfold Obligations.HostWriteWordThenRead
  intro s a w hinv hr
  obtain ⟨hwf, -⟩ := hinv
  refine ⟨{ s with mem := Memory.writeWord s.mem a w }, hostOp_of_idle _ hr, ?_, ?_, ?_, ?_, rfl⟩
  · rw [hostQuery_with_mem _ hr, hostRead, readWord_writeWord a w hwf]
  · rw [← lowByte_ofNat]
    exact read_writeWord_low a w hwf
  · rw [← succ_ofNat, ← highByte_ofNat]
    exact read_writeWord_high a w hwf
  · exact fun b hlo hhi => read_writeWord_other w hwf hlo hhi

/-- Settles O58: every address of the empty memory reads as the unlisted byte, 0x00. -/
theorem hostInitZeroesMemory : Obligations.HostInitZeroesMemory := by
  unfold Obligations.HostInitZeroesMemory
  intro s hr
  refine ⟨{ s with mem := [] }, hostOp_of_idle _ hr, fun a => ?_, rfl⟩
  rw [hostQuery_with_mem _ hr, hostRead, nil_read, unlistedByte_eq, BitVec.ofNat_eq_ofNat]

end Sys2Proof.Proofs
end

section
/-! Bytes and instructions: what the row of an opcode decodes, and that the table, the forms and the encoder agree. -/

namespace Sys2Proof.Proofs

open Sys2Proof.Machine Sys2Proof.Safety

/-! ## The operand bytes of a row -/

/-- The number of bytes after the opcode (30_encoding.md R51). -/
def operandSize (o : Operand) : Nat :=
  match o with
  | .byte _ => 1
  | .word _ => 2

/-- `Makes o ops i`: of the bytes `ops` after the opcode, no more and no fewer, the operand makes `i` (30_encoding.md
R53). `decode_of_row` and `row_of_decode` tie it to `decode`. -/
def Makes (o : Operand) (ops : List Byte) (i : Instr) : Prop :=
  match o with
  | .byte mk => ∃ v, ops = [v] ∧ i = mk v
  | .word mk => ∃ w, ops = [lowByte w, highByte w] ∧ i = mk w

/-- Operand bytes have no illegal values (30_encoding.md R58). -/
theorem exists_makes_of_length {o : Operand} {ops : List Byte} (h : ops.length = operandSize o) : ∃ i, Makes o ops i := by
  cases o with
  | byte mk =>
    obtain ⟨v, rfl⟩ := List.length_eq_one_iff.mp h
    exact ⟨mk v, v, rfl, rfl⟩
  | word mk =>
    match ops, h with
    | [lo, hi], _ => exact ⟨mk (joinBytes lo hi), joinBytes lo hi, by rw [lowByte_join, highByte_join], rfl⟩

/-! ## The decoder, by the row of the first byte -/

theorem decode_of_no_row {b : Byte} (hrow : findRow b = none) (bs : List Byte) : decode (b :: bs) = .unassigned b := by
  simp [decode, hrow]

theorem decode_of_row {b : Byte} {r : OpcodeRow} {ops : List Byte} {i : Instr} (hrow : findRow b = some r)
    (hops : Makes r.operand ops i) (rest : List Byte) : decode (b :: ops ++ rest) = .instr i rest := by
  cases hop : r.operand with
  | byte mk =>
    rw [hop] at hops
    obtain ⟨v, rfl, rfl⟩ := hops
    simp [decode, hrow, hop]
  | word mk =>
    rw [hop] at hops
    obtain ⟨w, rfl, rfl⟩ := hops
    simp [decode, hrow, hop]

theorem decode_of_short_row {b : Byte} {r : OpcodeRow} {bs : List Byte} (hrow : findRow b = some r)
    (hshort : bs.length < operandSize r.operand) : decode (b :: bs) = .truncated := by
  cases hop : r.operand with
  | byte mk =>
    rw [hop] at hshort
    obtain rfl := List.length_eq_zero_iff.mp (Nat.lt_one_iff.mp hshort)
    simp [decode, hrow, hop]
  | word mk =>
    rw [hop] at hshort
    match bs, hshort with
    | [], _ => simp [decode, hrow, hop]
    | [_], _ => simp [decode, hrow, hop]

/-- Enough bytes: the operand takes its own, and all the others are left (30_encoding.md R52). -/
theorem decode_of_long_row {b : Byte} {r : OpcodeRow} {bs : List Byte} (hrow : findRow b = some r)
    (hlong : operandSize r.operand ≤ bs.length) :
    ∃ i, Makes r.operand (bs.take (operandSize r.operand)) i ∧
      decode (b :: bs) = .instr i (bs.drop (operandSize r.operand)) := by
  obtain ⟨i, hi⟩ := exists_makes_of_length (List.length_take_of_le hlong)
  have hdec := decode_of_row hrow hi (bs.drop (operandSize r.operand))
  rw [List.cons_append, List.take_append_drop] at hdec
  exact ⟨i, hi, hdec⟩

/-- Bytes that decode to an instruction are a row's opcode, the operand bytes of that row, and the rest. -/
theorem row_of_decode {bs rest : List Byte} {i : Instr} (h : decode bs = .instr i rest) :
    ∃ b r ops, findRow b = some r ∧ Makes r.operand ops i ∧ bs = b :: ops ++ rest := by
  cases bs with
  | nil => cases h
  | cons b bs =>
    cases hrow : findRow b with
    | none => simp [decode_of_no_row hrow] at h
    | some r =>
      obtain hshort | hlong := Nat.lt_or_ge bs.length (operandSize r.operand)
      · simp [decode_of_short_row hrow hshort] at h
      · obtain ⟨j, hj, hdec⟩ := decode_of_long_row hrow hlong
        obtain ⟨rfl, rfl⟩ := Decoded.instr.inj (hdec.symm.trans h)
        exact ⟨b, r, _, hrow, hj, by rw [List.cons_append, List.take_append_drop]⟩

/-! ## The table against the encoder and the forms -/

/-- Every instruction has its row: the encoder writes an opcode of the table and the operand bytes of that row. -/
theorem row_of_encode (i : Instr) : ∃ b ops r, encode i = b :: ops ∧ findRow b = some r ∧ Makes r.operand ops i := by
  cases i with
  | ldaImm v | ldaZp v | ldaZpX v | ldxImm v | ldxZp v | ldxZpY v | ldyImm v | ldyZp v | ldyZpX v =>
    exact ⟨_, _, _, rfl, rfl, v, rfl, rfl⟩
  | ldaAbs w | ldaAbsX w | ldaAbsY w | ldxAbs w | ldxAbsY w | ldyAbs w | ldyAbsX w =>
    exact ⟨_, _, _, rfl, rfl, w, rfl, rfl⟩

/-- The columns of a row of 30_encoding.md R54 belong together, and to the encoder: the mode has the operand's length, and
what the operand makes has the row's form and is encoded with the row's opcode. -/
def RowAgrees (r : OpcodeRow) : Prop :=
  match r.operand with
  | .byte mk => modeLength r.form.mode = 2 ∧ ∀ v, formOf (mk v) = r.form ∧ encode (mk v) = [r.opcode, v]
  | .word mk =>
    modeLength r.form.mode = 3 ∧ ∀ w, formOf (mk w) = r.form ∧ encode (mk w) = [r.opcode, lowByte w, highByte w]

theorem opcodeTable_agrees : ∀ r ∈ opcodeTable, RowAgrees r := by
  simp [opcodeTable, RowAgrees, modeLength, formOf, encode]

/-- The row that an opcode byte selects is in the table and has that opcode. -/
theorem mem_of_findRow {b : Byte} {r : OpcodeRow} (hrow : findRow b = some r) : r ∈ opcodeTable ∧ r.opcode = b :=
  ⟨List.mem_of_find?_eq_some hrow, by simpa using List.find?_some hrow⟩

theorem modeLength_of_row {b : Byte} {r : OpcodeRow} (hrow : findRow b = some r) :
    modeLength r.form.mode = operandSize r.operand + 1 := by
  have hagrees := opcodeTable_agrees r (mem_of_findRow hrow).1
  unfold RowAgrees at hagrees
  cases hop : r.operand with
  | byte mk | word mk =>
    rw [hop] at hagrees
    exact hagrees.1

theorem made_of_row {b : Byte} {r : OpcodeRow} {ops : List Byte} {i : Instr} (hrow : findRow b = some r)
    (hops : Makes r.operand ops i) : formOf i = r.form ∧ encode i = b :: ops := by
  obtain ⟨hmem, rfl⟩ := mem_of_findRow hrow
  have hagrees := opcodeTable_agrees r hmem
  unfold RowAgrees at hagrees
  cases hop : r.operand with
  | byte mk =>
    rw [hop] at hagrees hops
    obtain ⟨v, rfl, rfl⟩ := hops
    exact hagrees.2 v
  | word mk =>
    rw [hop] at hagrees hops
    obtain ⟨w, rfl, rfl⟩ := hops
    exact hagrees.2 w

/-- Three bytes in the modes ABS, ABSX and ABSY, two in the others (30_encoding.md R52). -/
theorem modeLength_eq_ite (m : Mode) :
    modeLength m = if m = .abs ∨ m = .absi .x ∨ m = .absi .y then 3 else 2 := by
  cases m with
  | imm | zp | abs => rfl
  | zpi i | absi i => cases i <;> rfl

/-! ## The spec's Decode -/

theorem decodeOpcode_eq_elim (b : Byte) :
    decodeOpcode b = (findRow b).elim (.unassigned b) (fun r => .assigned r.form) := by
  unfold decodeOpcode
  cases findRow b <;> rfl

theorem findRow_of_assigned {b : Byte} {f : Form} (h : decodeOpcode b = .assigned f) :
    ∃ r, findRow b = some r ∧ r.form = f := by
  rw [decodeOpcode_eq_elim] at h
  cases hrow : findRow b with
  | none => simp [hrow] at h
  | some r => exact ⟨r, rfl, by simpa [hrow] using h⟩

theorem findRow_of_unassigned {b : Byte} (h : decodeOpcode b = .unassigned b) : findRow b = none := by
  rw [decodeOpcode_eq_elim] at h
  cases hrow : findRow b with
  | none => rfl
  | some r => simp [hrow] at h

/-- A list of rows read as a chain of tests on the opcode. -/
def testRows (b : Byte) (rows : List OpcodeRow) : Opcode :=
  rows.foldr (fun r otherwise => if b = r.opcode then .assigned r.form else otherwise) (.unassigned b)

/-- To find the first row that matches is to test the rows in their order. -/
theorem elim_find?_eq_testRows (b : Byte) (rows : List OpcodeRow) :
    (rows.find? (fun r => r.opcode == b)).elim (.unassigned b) (fun r => .assigned r.form) = testRows b rows := by
  induction rows with
  | nil => rfl
  | cons r rows ih =>
    by_cases h : b = r.opcode
    · simp [testRows, h]
    · rw [List.find?_cons_of_neg (by simpa using Ne.symm h), ih]
      simp [testRows, h]

theorem decodeOpcode_eq_testRows (b : Byte) : decodeOpcode b = testRows b opcodeTable :=
  (decodeOpcode_eq_elim b).trans (elim_find?_eq_testRows b opcodeTable)

end Sys2Proof.Proofs
end

section
/-! The statements about encoding, each assembled from the facts above. -/

namespace Sys2Proof.Proofs

open Sys2Proof.Machine Sys2Proof.Safety

/-- Settles O1: the encoding is an opcode and operand bytes of one row, and the decoder answers what that row makes. -/
theorem decodeOfEncode : Obligations.DecodeOfEncode := by
  unfold Obligations.DecodeOfEncode
  intro i rest
  obtain ⟨b, ops, r, henc, hrow, hops⟩ := row_of_encode i
  rw [henc]
  exact decode_of_row hrow hops rest

/-- Settles O2: the bytes are an opcode and operand bytes of one row, and what that row makes is encoded so. -/
theorem encodeOfDecode : Obligations.EncodeOfDecode := by
  unfold Obligations.EncodeOfDecode
  intro bs i rest h
  obtain ⟨b, r, ops, hrow, hops, rfl⟩ := row_of_decode h
  obtain ⟨-, henc⟩ := made_of_row hrow hops
  rw [henc]

/-- Settles O4: the opcode selects a row, and the row's mode has the size of its operand; the decoder asks for no more. -/
theorem lengthFromOpcodeAlone : Obligations.LengthFromOpcodeAlone := by
  unfold Obligations.LengthFromOpcodeAlone
  refine ⟨fun b bs f hf => ?_, fun b bs hb => decode_of_no_row (findRow_of_unassigned hb) bs⟩
  obtain ⟨r, hrow, rfl⟩ := findRow_of_assigned hf
  have hlen := modeLength_of_row hrow
  refine ⟨modeLength_eq_ite r.form.mode, fun hshort => ?_, fun hlong => ?_⟩
  · exact decode_of_short_row hrow (by rw [List.length_cons] at hshort; omega)
  · obtain ⟨i, hi, hdec⟩ := decode_of_long_row (bs := bs) hrow (by rw [List.length_cons] at hlong; omega)
    obtain ⟨hform, -⟩ := made_of_row hrow hi
    rw [hlen, List.drop_succ_cons]
    exact ⟨i, hdec, hform⟩

/-- Settles O3: the statement is the table of 30_encoding.md R54 read as a chain of tests. -/
theorem decodeIsTheOpcodeMap : Obligations.DecodeIsTheOpcodeMap := by
  unfold Obligations.DecodeIsTheOpcodeMap
  intro b
  exact decodeOpcode_eq_testRows b

end Sys2Proof.Proofs
end

section
/-! Fetch and execute: what the fetches answer, the step against the spec's pseudocode, its cost, and the execute loop step
by step. -/

namespace Sys2Proof.Proofs

open Sys2Proof.Machine Sys2Proof.Safety

/-! ## The fetches -/

/-- `FetchByte` with the new pc written as a number (40_fetch_execute.md R65). -/
theorem fetchByte_eq (s : State) : fetchByte s =
    (Memory.read s.mem s.pc, { s with pc := BitVec.ofNat 16 ((s.pc.toNat + 1) % 65536), cyc := s.cyc - 1 }) := by
  rw [← succ_ofNat]
  rfl

/-- `FetchWord` with both its fetches written out (40_fetch_execute.md R66). -/
theorem fetchWord_eq (s : State) : fetchWord s =
    (joinBytes (Memory.read s.mem s.pc) (Memory.read s.mem (s.pc + 1)), { s with pc := s.pc + 2, cyc := s.cyc - 2 }) :=
  Prod.ext rfl (state_ext _ _ (passWord_pc s) rfl rfl rfl rfl rfl (passWord_cyc s) rfl rfl)

/-- The word after the opcode byte: the second and the third byte of the instruction. -/
theorem fetchWord_passByte (s : State) :
    (fetchWord (passByte s)).1 = joinBytes (Memory.read s.mem (s.pc + 1)) (Memory.read s.mem (s.pc + 2)) := by
  simp [fetchWord_eq, pc_one_one]

/-! ## The instruction at pc, by the row of its opcode -/

/-- The instruction that an operand makes of the bytes at pc, as the spec's resolvers fetch them (41_addressing_modes.md
R77 to R81). `fetchInstr_of_row` ties it to `fetchInstr`. -/
def fetchOperand (o : Operand) (s : State) : Instr :=
  match o with
  | .byte mk => mk (fetchByte s).1
  | .word mk => mk (fetchWord s).1

theorem fetchInstr_of_row {s : State} {r : OpcodeRow} (hrow : findRow (Memory.read s.mem s.pc) = some r) :
    fetchInstr s = some (fetchOperand r.operand (passByte s)) := by
  simp only [fetchInstr, decode3, hrow]
  cases r.operand with
  | byte mk => rfl
  | word mk => simp only [fetchOperand, fetchWord_passByte]

theorem fetchInstr_of_no_row {s : State} (hrow : findRow (Memory.read s.mem s.pc) = none) : fetchInstr s = none := by
  simp only [fetchInstr, decode3, hrow]

/-- What the decoder answers on three bytes is what the fetch takes them for. -/
theorem decode3_of_decode {b0 b1 b2 : Byte} {rest : List Byte} {i : Instr} (h : decode [b0, b1, b2] = .instr i rest) :
    decode3 b0 b1 b2 = some i := by
  cases hrow : findRow b0 with
  | none => simp [decode_of_no_row hrow] at h
  | some r =>
    cases hop : r.operand with
    | byte mk | word mk =>
      simp only [decode, hrow, hop, Decoded.instr.injEq] at h
      simp [decode3, hrow, hop, h]

/-! ## The step and the pseudocode -/

/-- The row's mode resolves, in the pseudocode, to the byte and the state that the meaning of the row's instruction commits
(40_fetch_execute.md R72, 41_addressing_modes.md R76). -/
def RowResolves (r : OpcodeRow) : Prop :=
  ∀ s, exec (fetchOperand r.operand (passByte s)) s =
    commit r.form.dest (pseudoResolve params.pageCross r.form.mode (passByte s))

/-- Row by row: a meaning's resolver is the pseudocode's with the operand fetch already made (log 9). -/
theorem opcodeTable_resolves : ∀ r ∈ opcodeTable, RowResolves r := by
  unfold opcodeTable
  iterate 16 refine List.forall_mem_cons.mpr ⟨fun _ => rfl, ?_⟩
  exact List.forall_mem_nil _

theorem pseudoStep_of_row (p : Params) {s : State} {r : OpcodeRow} (hrow : findRow (Memory.read s.mem s.pc) = some r) :
    .next (pseudoStep p s) = commit r.form.dest (pseudoResolve p.pageCross r.form.mode (passByte s)) := by
  have hdec : decodeOpcode (fetchByte s).1 = .assigned r.form := by
    rw [decodeOpcode_eq_elim, fetchByte_eq, hrow, Option.elim_some]
  simp only [pseudoStep, hdec]
  rfl

theorem pseudoStep_of_no_row (p : Params) {s : State} (hrow : findRow (Memory.read s.mem s.pc) = none) :
    pseudoStep p s = unassignedOpcode p.unassigned s := by
  have hdec : decodeOpcode (fetchByte s).1 = .unassigned (fetchByte s).1 := by
    rw [decodeOpcode_eq_elim, fetchByte_eq, hrow, Option.elim_none]
  simp only [pseudoStep, hdec]
  cases p.unassigned <;> rfl

/-- An enabled step by the row of its opcode; with no row both sides are the unassigned-opcode step. -/
theorem step_eq_pseudoStep {s : State} (hr : running s = true) : step s = .next (pseudoStep params s) := by
  cases hrow : findRow (Memory.read s.mem s.pc) with
  | none => rw [step_of_unassigned s hr (fetchInstr_of_no_row hrow), pseudoStep_of_no_row params hrow]
  | some r =>
    rw [step_of_instr s _ hr (fetchInstr_of_row hrow), opcodeTable_resolves r (mem_of_findRow hrow).1 s,
      pseudoStep_of_row params hrow]

/-! ## The cost of a step -/

/-- An instruction reads at least its own bytes (20_memory.md R48). -/
theorem one_le_costOf (i : Instr) (s : State) : 1 ≤ costOf i s := by
  have hlen := two_le_instrLength i
  simp only [costOf, readsOf, addrsFrom, List.length_append, List.length_map, List.length_range]
  omega

/-- An enabled step lowers CYC by one to five (40_fetch_execute.md R71). -/
theorem step_cost {s t : State} (hr : running s = true) (h : step s = .next t) :
    1 ≤ s.cyc - t.cyc ∧ s.cyc - t.cyc ≤ 5 := by
  obtain ⟨hidle, -⟩ | ⟨-, i, -, rfl⟩ | ⟨-, -, rfl⟩ := step_outcome h
  · simp [hr] at hidle
  · have hlow := one_le_costOf i s
    have hhigh := costOf_le_five i s
    rw [afterInstr_cyc]
    omega
  · rw [raiseIllegalOpcode_cyc, passByte_cyc]
    omega

/-! ## Another value of CYC -/

theorem effectiveAddress_with_cyc (i : Instr) (s : State) (c : Int) :
    effectiveAddress i { s with cyc := c } = effectiveAddress i s := by cases i <;> rfl

theorem loadedByte_with_cyc (i : Instr) (s : State) (c : Int) : loadedByte i { s with cyc := c } = loadedByte i s := by
  simp only [loadedByte, effectiveAddress_with_cyc]

theorem costOf_with_cyc (i : Instr) (s : State) (c : Int) : costOf i { s with cyc := c } = costOf i s := by
  cases i <;> rfl

/-- `s` with `n` more cycles left. -/
def addCycles (n : Nat) (s : State) : State := { s with cyc := s.cyc + n }

@[simp] theorem addCycles_cyc (n : Nat) (s : State) : (addCycles n s).cyc = s.cyc + n := rfl

/-- Cycles given before a charge or after it come to the same count. -/
theorem cycles_add_sub (c : Int) (n : Nat) (k : Int) : c + n - k = c - k + n := by omega

/-- An instruction reads no CYC: what it takes off is the same from any counter. -/
theorem afterInstr_addCycles (i : Instr) (n : Nat) (s : State) :
    afterInstr i (addCycles n s) = addCycles n (afterInstr i s) := by
  simp only [afterInstr, addCycles, loadedByte_with_cyc, costOf_with_cyc, cycles_add_sub]
  cases (formOf i).dest <;> rfl

theorem passByte_addCycles (n : Nat) (s : State) : passByte (addCycles n s) = addCycles n (passByte s) :=
  state_ext _ _ rfl rfl rfl rfl rfl rfl (cycles_add_sub s.cyc n 1) rfl rfl

theorem running_addCycles (n : Nat) {s : State} (hr : running s = true) : running (addCycles n s) = true := by
  obtain ⟨hpos, hfault⟩ := (running_iff s).mp hr
  exact (running_iff _).mpr ⟨by rw [addCycles_cyc]; omega, hfault⟩

/-- More budget, same step (40_fetch_execute.md R69). -/
theorem step_addCycles (n : Nat) {s t : State} (hr : running s = true) (h : step s = .next t) :
    step (addCycles n s) = .next (addCycles n t) := by
  have hr' := running_addCycles n hr
  obtain ⟨hidle, -⟩ | ⟨-, i, hi, rfl⟩ | ⟨-, hi, rfl⟩ := step_outcome h
  · simp [hr] at hidle
  · rw [step_of_instr _ i hr' hi, exec_eq, afterInstr_addCycles]
  · rw [step_of_unassigned _ hr' hi, params_unassigned, unassignedOpcode_fault, passByte_addCycles]
    rfl

/-! ## The execute loop -/

theorem executeFor_of_idle (n : Nat) {s : State} (hr : running s = false) : executeFor n s = .next s := by
  cases n <;> simp [executeFor, hr]

theorem executeFor_succ_of_running (n : Nat) {s t : State} (hr : running s = true) (h : step s = .next t) :
    executeFor (n + 1) s = executeFor n t := by
  simp [executeFor, hr, h]

theorem executeFor_eq_pseudoExecuteFor (n : Nat) (s : State) :
    executeFor n s = .next (pseudoExecuteFor params n s) := by
  induction n generalizing s with
  | zero => rfl
  | succ n ih =>
    cases hr : running s with
    | false => simp [executeFor_of_idle, pseudoExecuteFor, hr]
    | true =>
      rw [executeFor_succ_of_running n hr (step_eq_pseudoStep hr), ih]
      simp [pseudoExecuteFor, hr]

/-- As many steps as there are cycles are enough to end: every step takes at least one (40_fetch_execute.md R75). -/
theorem executeFor_ends_idle {n : Nat} {s : State} (hn : s.cyc ≤ n) :
    ∃ t, executeFor n s = .next t ∧ running t = false := by
  induction n generalizing s with
  | zero => exact ⟨s, rfl, (not_running_iff s).mpr (.inl hn)⟩
  | succ n ih =>
    cases hr : running s with
    | false => exact ⟨s, executeFor_of_idle _ hr, hr⟩
    | true =>
      have hstep := step_eq_pseudoStep hr
      obtain ⟨hcost, -⟩ := step_cost hr hstep
      rw [executeFor_succ_of_running n hr hstep]
      exact ih (by omega)

theorem hostRun_ends_idle (budget : Int) (s : State) : ∃ t, hostRun budget s = .next t ∧ running t = false :=
  executeFor_ends_idle (Int.self_le_toNat budget)

/-- A loop that ends with CYC overdrawn by `k` ends the same from `k` more cycles, with CYC = 0: each of its steps is
enabled and the same with the greater counter, and no further one is. More fuel does not matter. -/
theorem executeFor_addCycles {k m n : Nat} {s t : State} (h : executeFor m s = .next t) (hk : t.cyc + k = 0)
    (hmn : m ≤ n) : executeFor n (addCycles k s) = .next { t with cyc := 0 } := by
  have hend (n : Nat) : executeFor n (addCycles k t) = .next { t with cyc := 0 } := by
    rw [addCycles, hk]
    exact executeFor_of_idle n rfl
  induction m generalizing n s with
  | zero =>
    cases h
    exact hend n
  | succ m ih =>
    cases hr : running s with
    | false =>
      rw [executeFor_of_idle _ hr] at h
      cases h
      exact hend n
    | true =>
      have hstep := step_eq_pseudoStep hr
      rw [executeFor_succ_of_running m hr hstep] at h
      obtain ⟨n, rfl⟩ := Nat.exists_eq_succ_of_ne_zero (Nat.ne_zero_of_lt hmn)
      rw [executeFor_succ_of_running _ (running_addCycles k hr) (step_addCycles k hr hstep)]
      exact ih h (Nat.le_of_succ_le_succ hmn)

/-- The counter in a run of a positive budget: at least -4 and at most the budget; with a latched fault at least 0 and
below the budget, since the faulting step took one of the cycles left (40_fetch_execute.md R71, 60_exceptions.md R103). -/
def CounterInRun (budget : Int) (s : State) : Prop :=
  -4 ≤ s.cyc ∧ s.cyc ≤ budget ∧ (s.fault ≠ .none → 0 ≤ s.cyc ∧ s.cyc < budget)

theorem step_keeps_counterInRun {budget : Int} (s t : State) (hs : CounterInRun budget s) (h : step s = .next t) :
    CounterInRun budget t := by
  obtain ⟨hlow, hhigh, hlatched⟩ := hs
  obtain ⟨-, rfl⟩ | ⟨hr, i, -, rfl⟩ | ⟨hr, -, rfl⟩ := step_outcome h
  · exact ⟨hlow, hhigh, hlatched⟩
  · obtain ⟨hpos, hfault⟩ := (running_iff s).mp hr
    have hcost := costOf_le_five i s
    rw [CounterInRun, afterInstr_cyc, afterInstr_fault]
    exact ⟨by omega, by omega, fun hne => absurd hfault hne⟩
  · obtain ⟨hpos, -⟩ := (running_iff s).mp hr
    rw [CounterInRun, raiseIllegalOpcode_cyc, passByte_cyc]
    omega

end Sys2Proof.Proofs
end

section
/-! The statements about fetch and execute, each assembled from the facts above. -/

namespace Sys2Proof.Proofs

open Sys2Proof.Machine Sys2Proof.Safety

/-- Settles O28: an enabled step takes at least one cycle, and a step that is not enabled is idle. -/
theorem stepEnabledIff : Obligations.StepEnabledIff := by
  unfold Obligations.StepEnabledIff
  intro s
  rw [← running_iff]
  constructor
  · intro hr
    have hstep := step_eq_pseudoStep hr
    obtain ⟨hcost, -⟩ := step_cost hr hstep
    exact ⟨_, hstep, by omega⟩
  · intro hr
    exact step_of_idle s (Bool.eq_false_iff.mpr hr)

/-- Settles O34: the bounds of one step; over an unassigned opcode it is the one fetch. -/
theorem stepCostBounds : Obligations.StepCostBounds := by
  unfold Obligations.StepCostBounds
  intro s hr
  have hstep := step_eq_pseudoStep hr
  obtain ⟨hlow, hhigh⟩ := step_cost hr hstep
  refine ⟨_, hstep, hlow, hhigh, fun hop => ?_⟩
  rw [pseudoStep_of_no_row params (findRow_of_unassigned hop), params_unassigned, unassignedOpcode_fault,
    raiseIllegalOpcode_cyc, passByte_cyc]
  omega

/-- Settles O37, by the row of the opcode at pc. -/
theorem stepRefinesPseudocode : Obligations.StepRefinesPseudocode := by
  unfold Obligations.StepRefinesPseudocode
  intro s hr
  exact step_eq_pseudoStep hr

/-- Settles O38, by induction on the number of steps: each step is the pseudocode's. -/
theorem runRefinesPseudocode : Obligations.RunRefinesPseudocode := by
  unfold Obligations.RunRefinesPseudocode
  intro budget s
  exact executeFor_eq_pseudoExecuteFor budget.toNat { s with cyc := budget }

/-- Settles O45: the run state stays enabled, and neither the fetch nor the instruction reads CYC. -/
theorem stepCommutesWithMoreBudget : Obligations.StepCommutesWithMoreBudget := by
  unfold Obligations.StepCommutesWithMoreBudget
  intro s t n hr h
  exact step_addCycles n hr h

/-- Settles O46: the budget bounds the number of steps. -/
theorem runEndsIdle : Obligations.RunEndsIdle := by
  unfold Obligations.RunEndsIdle
  intro budget s
  exact hostRun_ends_idle budget s

/-- Settles O47: the bounds that every step keeps, and at the end the engine is idle. -/
theorem runEndCounter : Obligations.RunEndCounter := by
  unfold Obligations.RunEndCounter
  intro budget s t hpos hfault h
  have hstart : CounterInRun budget { s with cyc := budget } :=
    ⟨show -4 ≤ budget by omega, Int.le_refl _, absurd hfault⟩
  obtain ⟨hlow, -, hlatched⟩ := hostRun_keeps step_keeps_counterInRun h hstart
  refine ⟨fun hnone => ⟨hlow, ?_⟩, hlatched⟩
  obtain ⟨u, hu, hidle⟩ := hostRun_ends_idle budget s
  cases h.symm.trans hu
  exact ((not_running_iff t).mp hidle).resolve_right (absurd hnone)

/-- Settles O49: step by step the run with the overdraft added is the same run. -/
theorem overdraftPaidInAdvance : Obligations.OverdraftPaidInAdvance := by
  unfold Obligations.OverdraftPaidInAdvance
  intro budget s t _ h hover _
  obtain ⟨k, hk⟩ := Int.eq_ofNat_of_zero_le (show 0 ≤ -t.cyc by omega)
  have hbudget : budget - t.cyc = budget + k := by omega
  rw [hbudget]
  exact executeFor_addCycles h (by omega) (Int.toNat_le_toNat (show budget ≤ budget + k by omega))

/-- Settles O23: the byte fetch advances pc by one; the word fetch is two of them, and its wrap is that of pc + 1 and pc + 2. -/
theorem fetchPrimitives : Obligations.FetchPrimitives := by
  unfold Obligations.FetchPrimitives
  refine ⟨fun _ _ => rfl, fetchByte_eq, fetchWord_eq, fun s hpc => ?_⟩
  rw [fetchWord_eq, hpc]
  exact ⟨rfl, rfl⟩

/-- Settles O27: the fetch takes the three bytes for what the decoder answers on them. -/
theorem stepRunsDecodedInstruction : Obligations.StepRunsDecodedInstruction := by
  unfold Obligations.StepRunsDecodedInstruction
  intro s i rest hr h
  obtain ⟨hwf, -⟩ := encoding_law i
  exact ⟨hwf, step_of_instr s i hr (decode3_of_decode h)⟩

/-- Settles O48: with no budget or with a latched fault no step is enabled, and the loop answers the state it is given. -/
theorem runWithoutStep : Obligations.RunWithoutStep := by
  unfold Obligations.RunWithoutStep
  intro budget s h
  exact executeFor_of_idle _ ((not_running_iff { s with cyc := budget }).mpr h)

end Sys2Proof.Proofs
end

section
/-! Addressing modes and the load: the operand byte of an immediate form, the page-crossing rule's part in a step, and the
flags of one byte. -/

namespace Sys2Proof.Proofs

open Sys2Proof.Machine Sys2Proof.Safety

/-! ## The flags of one byte -/

/-- The byte that sets Z has no sign bit, so no byte sets both flags (41_addressing_modes.md R83). -/
theorem not_zero_and_negative (v : Byte) : ¬ (decide (v = 0x00) = true ∧ v.getLsbD 7 = true) := by
  rintro ⟨hz, hn⟩
  obtain rfl := of_decide_eq_true hz
  exact absurd hn (by decide)

/-! ## The operand byte of an immediate form -/

/-- What the fetch takes three bytes for, the decoder answers on them; the converse of `decode3_of_decode`. -/
theorem decode_of_decode3 {b0 b1 b2 : Byte} {i : Instr} (h : decode3 b0 b1 b2 = some i) :
    ∃ rest, decode [b0, b1, b2] = .instr i rest := by
  cases hrow : findRow b0 with
  | none => simp [decode3, hrow] at h
  | some r =>
    cases hop : r.operand with
    | byte mk | word mk =>
      simp only [decode3, hrow, hop, Option.some.injEq] at h
      simp [decode, hrow, hop, h]

/-- An instruction without an effective address is an immediate form (41_addressing_modes.md R77). -/
theorem encode_of_no_effectiveAddress {i : Instr} {s : State} (h : effectiveAddress i s = none) :
    ∃ op, encode i = [op, immediateByte i] := by
  cases i with
  | ldaImm v | ldxImm v | ldyImm v => exact ⟨_, rfl⟩
  | _ => cases h

/-- The bytes at pc begin with the encoding of what is fetched there, and an immediate form is encoded with its data as
the second byte. -/
theorem immediateByte_of_fetchInstr {i : Instr} {s : State} (hi : fetchInstr s = some i)
    (hea : effectiveAddress i s = none) : immediateByte i = Memory.read s.mem (s.pc + 1) := by
  obtain ⟨rest, hdec⟩ := decode_of_decode3 hi
  obtain ⟨op, henc⟩ := encode_of_no_effectiveAddress hea
  have hbytes := encodeOfDecode _ _ _ hdec
  rw [henc] at hbytes
  simp only [List.cons_append, List.cons.injEq] at hbytes
  obtain ⟨-, hsecond, -⟩ := hbytes
  exact hsecond.symm

/-! ## The page-crossing rule -/

/-- The same state but for CYC, which differs by at most one: what the choice of the page-crossing rule may change. -/
def SameButOneCycle (s t : State) : Prop :=
  { s with cyc := 0 } = { t with cyc := 0 } ∧ s.cyc ≤ t.cyc + 1 ∧ t.cyc ≤ s.cyc + 1

theorem SameButOneCycle.refl (s : State) : SameButOneCycle s s := ⟨rfl, by omega, by omega⟩

theorem SameButOneCycle.charge {s t : State} (h : SameButOneCycle s t) : SameButOneCycle (charge s) (charge t) := by
  obtain ⟨hsame, hst, hts⟩ := h
  refine ⟨hsame, ?_, ?_⟩
  · rw [charge_cyc, charge_cyc]
    omega
  · rw [charge_cyc, charge_cyc]
    omega

/-- Two page-crossing charges of one state, each made or not (41_addressing_modes.md R81). -/
theorem sameButOneCycle_chargeIf (c c' : Bool) (s : State) : SameButOneCycle (chargeIf c s) (chargeIf c' s) := by
  refine ⟨?_, ?_, ?_⟩
  · cases c <;> cases c' <;> rfl
  · rw [chargeIf_cyc, chargeIf_cyc]
    omega
  · rw [chargeIf_cyc, chargeIf_cyc]
    omega

theorem load_with_cyc (d : Dest) (v : Byte) (s : State) (c : Int) :
    load d v { s with cyc := c } = { load d v s with cyc := c } := by cases d <;> rfl

theorem SameButOneCycle.load {s t : State} (h : SameButOneCycle s t) (d : Dest) (v : Byte) :
    SameButOneCycle (load d v s) (load d v t) := by
  obtain ⟨hsame, hst, hts⟩ := h
  refine ⟨?_, ?_, ?_⟩
  · rw [← load_with_cyc, ← load_with_cyc, hsame]
  · rwa [load_cyc, load_cyc]
  · rwa [load_cyc, load_cyc]

/-- Of the five resolvers only the absolute-indexed one asks the rule, and only whether to charge before its read
(41_addressing_modes.md R81, R82). -/
theorem pseudoResolve_of_rules (r r' : PageCrossRule) (m : Mode) (s : State) :
    (pseudoResolve r m s).1 = (pseudoResolve r' m s).1 ∧
      SameButOneCycle (pseudoResolve r m s).2 (pseudoResolve r' m s).2 := by
  cases m with
  | imm | zp | zpi | abs => exact ⟨rfl, .refl _⟩
  | absi i => exact ⟨by simp [pseudoResolve, readByteCounting], (sameButOneCycle_chargeIf _ _ _).charge⟩

/-- By the row of the opcode; with no row neither rule is asked. -/
theorem pseudoStep_of_rules (u : UnassignedPolicy) (r r' : PageCrossRule) (s : State) :
    SameButOneCycle (pseudoStep ⟨u, r⟩ s) (pseudoStep ⟨u, r'⟩ s) := by
  cases hrow : findRow (Memory.read s.mem s.pc) with
  | none =>
    rw [pseudoStep_of_no_row _ hrow, pseudoStep_of_no_row _ hrow]
    exact .refl _
  | some row =>
    have hstep (p : Params) := Host.Outcome.next.inj ((pseudoStep_of_row p hrow).trans (commit_spec ..))
    obtain ⟨hbyte, hstate⟩ := pseudoResolve_of_rules r r' row.form.mode (passByte s)
    rw [hstep, hstep, hbyte]
    exact hstate.load _ _

end Sys2Proof.Proofs
end

section
/-! The statements about addressing modes and the load, each assembled from the facts above. -/

namespace Sys2Proof.Proofs

open Sys2Proof.Machine Sys2Proof.Safety

/-- Settles O24: the destination and the frame from the laws of the load, the flags from `znUpdate_getLsbD` bit by bit. -/
theorem loadSetsRegisterAndFlags : Obligations.LoadSetsRegisterAndFlags := by
  unfold Obligations.LoadSetsRegisterAndFlags
  intro d v s
  have hzero : (load d v s).ps.getLsbD 1 = decide (v = 0x00) := by rw [load_ps, znUpdate_getLsbD]; rfl
  have hnegative : (load d v s).ps.getLsbD 7 = v.getLsbD 7 := by rw [load_ps, znUpdate_getLsbD]; rfl
  refine ⟨destReg_load_same d v s, fun d' => destReg_load_other v s, hzero, hnegative, fun k h1 h7 => ?_, ?_,
    load_pc .., load_sp .., load_cyc .., load_fault .., load_mem ..⟩
  · rw [load_ps, znUpdate_getLsbD, if_neg h7, if_neg h1]
  · rw [hzero, hnegative]
    exact not_zero_and_negative v

/-- Settles O26: the rule decides one charge and nothing else. -/
theorem pageCrossRulesDifferOnlyInCost : Obligations.PageCrossRulesDifferOnlyInCost := by
  unfold Obligations.PageCrossRulesDifferOnlyInCost
  intro u s
  exact pseudoStep_of_rules u .nonzero .differs s

/-- Settles O31: the destination holds the loaded byte, which for an immediate form is the second byte at pc. -/
theorem loadedByteFromEffectiveAddress : Obligations.LoadedByteFromEffectiveAddress := by
  unfold Obligations.LoadedByteFromEffectiveAddress
  intro s i hi
  refine ⟨afterInstr i s, exec_eq i s, ?_⟩
  rw [destReg_afterInstr_same, loadedByte]
  cases hea : effectiveAddress i s with
  | some ea => rfl
  | none => exact immediateByte_of_fetchInstr hi hea

end Sys2Proof.Proofs
end

section
/-! The results of the load instructions: the step by the row of the opcode at pc, and the whole next state with its flags,
addresses and cost in the spec's numbers. -/

namespace Sys2Proof.Proofs

open Sys2Proof.Machine Sys2Proof.Safety

/-! ## The flag formula -/

/-- The three masks of the flag formula, bit by bit (95_test_vectors.md V-FLAGS). -/
theorem flagMasks_getLsbD {k : Nat} (hk : k < 8) :
    (0x7D : Byte).getLsbD k = decide (k ≠ 1 ∧ k ≠ 7) ∧ (0x02 : Byte).getLsbD k = decide (k = 1) ∧
      (0x80 : Byte).getLsbD k = decide (k = 7) := by
  have masks : ∀ k : Fin 8, (0x7D : Byte).getLsbD k = decide (k.val ≠ 1 ∧ k.val ≠ 7) ∧
      (0x02 : Byte).getLsbD k = decide (k.val = 1) ∧ (0x80 : Byte).getLsbD k = decide (k.val = 7) := by decide
  exact masks ⟨k, hk⟩

/-- `SetZN(v)` as the formula of 95_test_vectors.md V-FLAGS: bit 7, bit 1, and the six others. -/
theorem znUpdate_eq_psAfter (v ps : Byte) : znUpdate v ps = psAfter v ps := by
  apply BitVec.eq_of_getLsbD_eq
  intro k hk
  obtain ⟨hkept, hzero, hnegative⟩ := flagMasks_getLsbD hk
  have hz : (if v = 0x00 then (0x02 : Byte) else 0x00).getLsbD k = (decide (v = 0) && decide (k = 1)) := by
    by_cases hv : v = 0x00
    · rw [if_pos hv, hzero, decide_eq_true hv, Bool.true_and]
    · rw [if_neg hv, decide_eq_false hv, Bool.false_and]
      exact BitVec.getLsbD_zero
  rw [znUpdate_getLsbD, psAfter, BitVec.getLsbD_or, BitVec.getLsbD_or, BitVec.getLsbD_and, BitVec.getLsbD_and, hkept, hz,
    hnegative]
  by_cases h7 : k = 7
  · simp [h7]
  · by_cases h1 : k = 1 <;> simp [h1, h7]

/-! ## The step by the row of the opcode at pc -/

theorem step_of_row {s : State} {r : OpcodeRow} (hrow : findRow (Memory.read s.mem s.pc) = some r)
    (hr : running s = true) : step s = exec (fetchOperand r.operand (passByte s)) s :=
  step_of_instr s _ hr (fetchInstr_of_row hrow)

/-- A row with one operand byte runs with the byte after the opcode, modulo 65536 (30_encoding.md R53). -/
theorem step_of_byteRow {b : Byte} {f : Form} {mk : Byte → Instr} (hrow : findRow b = some ⟨b, f, .byte mk⟩) {s : State}
    (hr : running s = true) (hb : Memory.read s.mem s.pc = b) :
    step s = exec (mk (Memory.read s.mem (s.pc + 1))) s := by
  subst hb
  exact step_of_row hrow hr

/-- A row with two operand bytes runs with the two after the opcode, modulo 65536, low byte first (30_encoding.md R53). -/
theorem step_of_wordRow {b : Byte} {f : Form} {mk : Addr → Instr} (hrow : findRow b = some ⟨b, f, .word mk⟩) {s : State}
    (hr : running s = true) (hb : Memory.read s.mem s.pc = b) :
    step s = exec (mk (Memory.read s.mem (s.pc + 2) ++ Memory.read s.mem (s.pc + 1))) s := by
  subst hb
  rw [step_of_row hrow hr, fetchOperand, fetchWord_passByte, joinBytes]

/-- The encoding of an instruction with a two-byte operand, its operand bytes as numbers (30_encoding.md R51). -/
theorem wordEncoding_ofNat (b : Byte) (w : Addr) :
    [b, lowByte w, highByte w] = [b, BitVec.ofNat 8 (w.toNat % 256), BitVec.ofNat 8 (w.toNat / 256)] := by
  rw [lowByte_ofNat, highByte_ofNat]

/-! ## The whole effect of a load -/

/-- Every instruction with its destination, flags, pc and CYC written out: `exec_eq` in the terms of V-FLAGS. -/
theorem exec_eq_of_loadedByte {i : Instr} {s : State} {v : Byte} {c : Int} (hv : loadedByte i s = v)
    (hc : (costOf i s : Int) = c) :
    exec i s = .next { setDest (formOf i).dest v s with
      ps := psAfter v s.ps
      pc := s.pc + BitVec.ofNat 16 (instrLength i)
      cyc := s.cyc - c } := by
  subst hv hc
  rw [exec_eq, afterInstr, load, setZN, setDest_ps, znUpdate_eq_psAfter]

/-- The same for an instruction that has an effective address: it loads the byte there (41_addressing_modes.md R76). -/
theorem exec_eq_of_effectiveAddress {i : Instr} {s : State} {ea : Addr} {c : Int} (hea : effectiveAddress i s = some ea)
    (hc : (costOf i s : Int) = c) :
    exec i s = .next { setDest (formOf i).dest (Memory.read s.mem ea) s with
      ps := psAfter (Memory.read s.mem ea) s.ps
      pc := s.pc + BitVec.ofNat 16 (instrLength i)
      cyc := s.cyc - c } :=
  exec_eq_of_loadedByte (by rw [loadedByte, hea]) hc

/-- The reads of an instruction with an effective address: its own bytes and the data byte (20_memory.md R48). -/
theorem readsOf_length_of_effectiveAddress {i : Instr} {s : State} {ea : Addr} (hea : effectiveAddress i s = some ea) :
    (readsOf i s).length = instrLength i + 1 := by
  simp [readsOf, addrsFrom, hea]

/-- Four reads, and a fifth cycle for a page crossing: the cost of an absolute indexed instruction (41_addressing_modes.md
R81, R82). -/
theorem costOf_of_pageCrossed {i : Instr} {s : State} {base ea : Addr} (hlen : instrLength i = 3)
    (hea : effectiveAddress i s = some ea)
    (hextra : extraCharge i s = (pageCrossed params.pageCross base ea).toNat) :
    (costOf i s : Int) = if pageCrossed params.pageCross base ea then 5 else 4 := by
  rw [costOf, readsOf_length_of_effectiveAddress hea, hlen, hextra]
  cases pageCrossed params.pageCross base ea <;> rfl

end Sys2Proof.Proofs
end

section
/-! The statements about the LDA family and about words of the spec, each assembled from the facts above. -/

namespace Sys2Proof.Proofs

open Sys2Proof.Machine Sys2Proof.Safety

/-- Settles O11: the base and X wrap modulo 65536, and the page-crossing charge is that of the wrapped address. -/
theorem ldaAbsoluteXResult : Obligations.LdaAbsoluteXResult := by
  unfold Obligations.LdaAbsoluteXResult
  refine ⟨wordEncoding_ofNat 0xBD, fun s hr hb => step_of_wordRow rfl hr hb, fun o s => ?_⟩
  rw [← eaAbsIdx_ofNat]
  exact exec_eq_of_effectiveAddress rfl (costOf_of_pageCrossed rfl rfl rfl)

/-- Settles O12: the base and Y wrap modulo 65536, and the page-crossing charge is that of the wrapped address. -/
theorem ldaAbsoluteYResult : Obligations.LdaAbsoluteYResult := by
  unfold Obligations.LdaAbsoluteYResult
  refine ⟨wordEncoding_ofNat 0xB9, fun s hr hb => step_of_wordRow rfl hr hb, fun o s => ?_⟩
  rw [← eaAbsIdx_ofNat]
  exact exec_eq_of_effectiveAddress rfl (costOf_of_pageCrossed rfl rfl rfl)

/-- Settles O5: four of the words are encodings of what they stand for, and the first bytes of the two others have no row. -/
theorem specWordsDecode : Obligations.SpecWordsDecode := by
  unfold Obligations.SpecWordsDecode
  exact ⟨decodeOfEncode (.ldaImm 0x7F) [], decodeOfEncode (.ldaAbs 0x1234) [], decodeOfEncode (.ldxZpY 0x20) [],
    decodeOfEncode (.ldyAbsX 0xFFFF) [], decode_of_no_row rfl [0x10], decode_of_no_row rfl []⟩

/-- Settles O7: the byte loaded is the operand itself, and the two fetches are the whole cost. -/
theorem ldaImmediateResult : Obligations.LdaImmediateResult := by
  unfold Obligations.LdaImmediateResult
  exact ⟨fun _ => rfl, fun s hr hb => step_of_byteRow rfl hr hb, fun o s => exec_eq_of_loadedByte rfl rfl⟩

/-- Settles O8: the zero-extended operand is the address as a number. -/
theorem ldaZeroPageResult : Obligations.LdaZeroPageResult := by
  unfold Obligations.LdaZeroPageResult
  refine ⟨fun _ => rfl, fun s hr hb => step_of_byteRow rfl hr hb, fun o s => ?_⟩
  exact exec_eq_of_effectiveAddress (congrArg some (eaZp_ofNat o)) rfl

/-- Settles O9: the byte sum of the base and X wraps modulo 256, and its computation is the fourth cycle. -/
theorem ldaZeroPageXResult : Obligations.LdaZeroPageXResult := by
  unfold Obligations.LdaZeroPageXResult
  refine ⟨fun _ => rfl, fun s hr hb => step_of_byteRow rfl hr hb, fun o s => ?_⟩
  exact exec_eq_of_effectiveAddress (congrArg some (eaZpIdx_ofNat o s.x)) rfl

/-- Settles O10: the operand is the address, and four reads are the whole cost. -/
theorem ldaAbsoluteResult : Obligations.LdaAbsoluteResult := by
  unfold Obligations.LdaAbsoluteResult
  exact ⟨wordEncoding_ofNat 0xAD, fun s hr hb => step_of_wordRow rfl hr hb,
    fun o s => exec_eq_of_effectiveAddress rfl rfl⟩

end Sys2Proof.Proofs
end

section
/-! The statements about the LDX family, each assembled from the facts about rows, addresses and the whole effect of a
load. -/

namespace Sys2Proof.Proofs

open Sys2Proof.Machine

/-- Settles O17: the base and Y wrap modulo 65536, and the page-crossing charge is that of the wrapped address. -/
theorem ldxAbsoluteYResult : Obligations.LdxAbsoluteYResult := by
  unfold Obligations.LdxAbsoluteYResult
  refine ⟨wordEncoding_ofNat 0xBE, fun s hr hb => step_of_wordRow rfl hr hb, fun o s => ?_⟩
  rw [← eaAbsIdx_ofNat]
  exact exec_eq_of_effectiveAddress rfl (costOf_of_pageCrossed rfl rfl rfl)

/-- Settles O13: the byte loaded is the operand itself, and the two fetches are the whole cost. -/
theorem ldxImmediateResult : Obligations.LdxImmediateResult := by
  unfold Obligations.LdxImmediateResult
  exact ⟨fun _ => rfl, fun s hr hb => step_of_byteRow rfl hr hb, fun o s => exec_eq_of_loadedByte rfl rfl⟩

/-- Settles O14: the zero-extended operand is the address as a number. -/
theorem ldxZeroPageResult : Obligations.LdxZeroPageResult := by
  unfold Obligations.LdxZeroPageResult
  refine ⟨fun _ => rfl, fun s hr hb => step_of_byteRow rfl hr hb, fun o s => ?_⟩
  exact exec_eq_of_effectiveAddress (congrArg some (eaZp_ofNat o)) rfl

/-- Settles O15: the byte sum of the base and Y wraps modulo 256, and its computation is the fourth cycle. -/
theorem ldxZeroPageYResult : Obligations.LdxZeroPageYResult := by
  unfold Obligations.LdxZeroPageYResult
  refine ⟨fun _ => rfl, fun s hr hb => step_of_byteRow rfl hr hb, fun o s => ?_⟩
  exact exec_eq_of_effectiveAddress (congrArg some (eaZpIdx_ofNat o s.y)) rfl

/-- Settles O16: the operand is the address, and four reads are the whole cost. -/
theorem ldxAbsoluteResult : Obligations.LdxAbsoluteResult := by
  unfold Obligations.LdxAbsoluteResult
  exact ⟨wordEncoding_ofNat 0xAE, fun s hr hb => step_of_wordRow rfl hr hb,
    fun o s => exec_eq_of_effectiveAddress rfl rfl⟩

end Sys2Proof.Proofs
end

section
/-! The statements about the LDY family, each assembled from the facts about rows, addresses and the whole effect of a
load. -/

namespace Sys2Proof.Proofs

open Sys2Proof.Machine

/-- Settles O22: the base and X wrap modulo 65536, and the page-crossing charge is that of the wrapped address. -/
theorem ldyAbsoluteXResult : Obligations.LdyAbsoluteXResult := by
  unfold Obligations.LdyAbsoluteXResult
  refine ⟨wordEncoding_ofNat 0xBC, fun s hr hb => step_of_wordRow rfl hr hb, fun o s => ?_⟩
  rw [← eaAbsIdx_ofNat]
  exact exec_eq_of_effectiveAddress rfl (costOf_of_pageCrossed rfl rfl rfl)

/-- Settles O18: the byte loaded is the operand itself, and the two fetches are the whole cost. -/
theorem ldyImmediateResult : Obligations.LdyImmediateResult := by
  unfold Obligations.LdyImmediateResult
  exact ⟨fun _ => rfl, fun s hr hb => step_of_byteRow rfl hr hb, fun o s => exec_eq_of_loadedByte rfl rfl⟩

/-- Settles O19: the zero-extended operand is the address as a number. -/
theorem ldyZeroPageResult : Obligations.LdyZeroPageResult := by
  unfold Obligations.LdyZeroPageResult
  refine ⟨fun _ => rfl, fun s hr hb => step_of_byteRow rfl hr hb, fun o s => ?_⟩
  exact exec_eq_of_effectiveAddress (congrArg some (eaZp_ofNat o)) rfl

/-- Settles O20: the byte sum of the base and X wraps modulo 256, and its computation is the fourth cycle. -/
theorem ldyZeroPageXResult : Obligations.LdyZeroPageXResult := by
  unfold Obligations.LdyZeroPageXResult
  refine ⟨fun _ => rfl, fun s hr hb => step_of_byteRow rfl hr hb, fun o s => ?_⟩
  exact exec_eq_of_effectiveAddress (congrArg some (eaZpIdx_ofNat o s.x)) rfl

/-- Settles O21: the operand is the address, and four reads are the whole cost. -/
theorem ldyAbsoluteResult : Obligations.LdyAbsoluteResult := by
  unfold Obligations.LdyAbsoluteResult
  exact ⟨wordEncoding_ofNat 0xAC, fun s hr hb => step_of_wordRow rfl hr hb,
    fun o s => exec_eq_of_effectiveAddress rfl rfl⟩

end Sys2Proof.Proofs
end

section
/-! Exceptions: the state after the opcode fetch alone, and what a host operation does to a latched fault. -/

namespace Sys2Proof.Proofs

open Sys2Proof.Machine

/-- The opcode fetch as a whole next state (40_fetch_execute.md R65): pc and CYC, and nothing else. -/
theorem passByte_eq (s : State) : passByte s = { s with pc := s.pc + 1, cyc := s.cyc - 1 } := rfl

/-- The nop policy leaves the opcode fetch alone (60_exceptions.md R104). -/
theorem unassignedOpcode_nop (s : State) : unassignedOpcode .nop s = passByte s := rfl

/-- A latched fault disables the engine, whatever CYC is (60_exceptions.md R112). -/
theorem not_running_of_fault {s : State} (hfault : s.fault ≠ .none) : running s = false :=
  (not_running_iff s).mpr (.inr hfault)

/-- On a faulted core a run performs no step, and of the other operations reset alone writes the latch (60_exceptions.md
R108). -/
theorem hostEffect_keeps_fault {op : HostOp} {s : State} (hfault : s.fault ≠ .none) (hop : op ≠ .reset) :
    ∃ t, hostEffect op s = .next t ∧ t.fault = s.fault := by
  cases op with
  | reset => exact absurd rfl hop
  | run budget => exact ⟨_, runWithoutStep budget s (.inr hfault), rfl⟩
  | init | writeByte | writeWord | setPc | setSp | setA | setX | setY | setPs => exact ⟨_, rfl, rfl⟩

end Sys2Proof.Proofs
end

section
/-! The statements about exceptions, each assembled from the facts above. -/

namespace Sys2Proof.Proofs

open Sys2Proof.Machine

/-- Settles O54: a faulted core is idle, so the step changes nothing and the host may act; only its reset writes the latch. -/
theorem faultLatchIsSticky : Obligations.FaultLatchIsSticky := by
  unfold Obligations.FaultLatchIsSticky
  intro s hfault
  have hidle := not_running_of_fault hfault
  refine ⟨step_of_idle s hidle, fun op hop => ?_, hostOp_of_idle .reset hidle, rfl⟩
  rw [hostOp_of_idle op hidle]
  exact hostEffect_keeps_fault hfault hop

/-- Settles O35: an unassigned opcode has no row, so the step is the opcode fetch and the raise under the configured policy. -/
theorem illegalOpcodeEntry : Obligations.IllegalOpcodeEntry := by
  unfold Obligations.IllegalOpcodeEntry
  intro s hr hop
  have hfetch : fetchInstr s = none := fetchInstr_of_no_row (findRow_of_unassigned hop)
  rw [step_of_unassigned s hr hfetch, params_unassigned, unassignedOpcode_fault, passByte_eq, raiseIllegalOpcode]

/-- Settles O36: with no row the pseudocode takes the policy's step and asks no page-crossing rule. -/
theorem unassignedOpcodeAsNop : Obligations.UnassignedOpcodeAsNop := by
  unfold Obligations.UnassignedOpcodeAsNop
  intro r s hop
  rw [pseudoStep_of_no_row ⟨.nop, r⟩ (findRow_of_unassigned hop), unassignedOpcode_nop, passByte_eq]
  exact ⟨rfl, rfl⟩

end Sys2Proof.Proofs
end

section
/-! Reset and the boundary between the host and the engine: what a running core answers the host, and that every operation
on an idle core answers a state. -/

namespace Sys2Proof.Proofs

open Sys2Proof.Machine

theorem hostOp_of_running (op : HostOp) {s : State} (h : running s = true) : hostOp op s = .refused .hostWhileRunning := by
  simp [hostOp, h]

theorem hostQuery_of_running (q : HostQuery) {s : State} (h : running s = true) : hostQuery q s = none := by
  simp [hostQuery, h]

/-- No effect of the host's faults or is refused: a run ends (40_fetch_execute.md R75), and every other operation is a single
update of the state. -/
theorem hostEffect_answers (op : HostOp) (s : State) : ∃ t, hostEffect op s = .next t := by
  cases op with
  | run budget =>
    obtain ⟨t, ht, -⟩ := hostRun_ends_idle budget s
    exact ⟨t, ht⟩
  | reset | init | writeByte | writeWord | setPc | setSp | setA | setX | setY | setPs => exact ⟨_, rfl⟩

/-- Reset leaves CYC = 0 (10_state.md R25, the spec's own decision D6), so the engine is idle after it. -/
theorem running_reset : running State.reset = false := (not_running_iff _).mpr (.inl (Int.le_refl 0))

end Sys2Proof.Proofs
end

section
/-! The statements about reset and the host's exclusion, each assembled from the facts above. -/

namespace Sys2Proof.Proofs

open Sys2Proof.Machine

/-- Settles O55: the guard of an operation and of a query is `running` alone, and behind it no operation gets stuck, since
every run ends. -/
theorem hostActsOnlyWhileIdle : Obligations.HostActsOnlyWhileIdle := by
  unfold Obligations.HostActsOnlyWhileIdle
  refine ⟨fun op _ => hostOp_of_running op, fun q _ => hostQuery_of_running q, fun op s hidle => ?_,
    fun q _ => hostQuery_of_idle q⟩
  rw [hostOp_of_idle op hidle]
  exact hostEffect_answers op s

/-- Settles O53: on an idle core the effect of reset reads nothing of the state, and the reset state is itself idle. -/
theorem resetFromAnyIdleState : Obligations.ResetFromAnyIdleState := by
  unfold Obligations.ResetFromAnyIdleState
  intro s hidle
  exact ⟨hostOp_of_idle .reset hidle, hostOp_of_idle .reset running_reset⟩

end Sys2Proof.Proofs
end

section
/-! Page crossing and the reset value of PS: both page-crossing rules as facts about numbers, and PS after reset bit by bit,
for any placing of its flags. -/

namespace Sys2Proof.Proofs

open Sys2Proof.Machine

/-! ## Page crossing -/

theorem highByte_eq_iff (a b : Addr) : highByte a = highByte b ↔ a.toNat / 256 = b.toNat / 256 := by
  rw [← highByte_toNat, ← highByte_toNat, BitVec.toNat_inj]

theorem highByte_eq_zero_iff (a : Addr) : highByte a = 0 ↔ a.toNat < 256 := by
  rw [← BitVec.toNat_inj, highByte_toNat]
  exact Nat.div_eq_zero_iff_lt (by decide)

theorem eaAbsIdx_toNat (base : Addr) (idx : Byte) :
    (eaAbsIdx base idx).toNat = (base.toNat + idx.toNat) % 65536 := by
  rw [eaAbsIdx, BitVec.toNat_add, zext16_toNat]

/-- The high byte changes exactly on a carry out of the low bytes: an index is at most 255, so the high byte then moves on by
one, modulo 256, and never comes back to itself (41_addressing_modes.md R82). -/
theorem pageCrossed_differs_iff (base : Addr) (idx : Byte) :
    pageCrossed .differs base (eaAbsIdx base idx) = true ↔ 256 ≤ base.toNat % 256 + idx.toNat := by
  have hbase := base.isLt
  have hidx := idx.isLt
  rw [pageCrossed, bne_iff_ne, ne_eq, highByte_eq_iff, eaAbsIdx_toNat]
  omega

theorem pageCrossed_nonzero_iff (base : Addr) (idx : Byte) :
    pageCrossed .nonzero base (eaAbsIdx base idx) = true ↔ 256 ≤ (base.toNat + idx.toNat) % 65536 := by
  rw [pageCrossed, bne_iff_ne, ne_eq, highByte_eq_zero_iff, eaAbsIdx_toNat, Nat.not_lt]

/-! ## PS after reset -/

/-- The reset value of PS sets two bits of a clear byte. -/
theorem psReset_eq_setBit (l : PsLayout) : psReset l = setBit (setBit 0 l.unused true) l.irqDisable true := by
  simp [psReset, setBit]

theorem psReset_getLsbD {l : PsLayout} (hunused : l.unused < 8) (hirq : l.irqDisable < 8) (k : Nat) :
    (psReset l).getLsbD k = (k == l.unused || k == l.irqDisable) := by
  rw [psReset_eq_setBit, setBit_getLsbD _ _ _ _ hirq, setBit_getLsbD _ _ _ _ hunused]
  by_cases hi : k = l.irqDisable
  · simp [hi]
  · by_cases hu : k = l.unused
    · simp [hu]
    · simp [hi, hu]

/-- A flag that the document does not number lies in PS, at neither of the two positions it does number
(92_eei_decisions.md D3). -/
theorem unnumbered_position {p : Nat} (h : p ∈ [0, 2, 3, 4, 5, 6]) : p < 8 ∧ 1 ≠ p ∧ 7 ≠ p := by
  have bounds : ∀ q ∈ [0, 2, 3, 4, 5, 6], q < 8 ∧ 1 ≠ q ∧ 7 ≠ q := by decide
  exact bounds p h

theorem resetFlags_mem_of_psLayoutValid {l : PsLayout} (h : psLayoutValid l = true) :
    l.unused ∈ [0, 2, 3, 4, 5, 6] ∧ l.irqDisable ∈ [0, 2, 3, 4, 5, 6] := by
  obtain ⟨hall, -⟩ := Bool.and_eq_true_iff.mp h
  have hmem := List.all_eq_true.mp hall
  exact ⟨List.contains_iff_mem.mp (hmem l.unused (by simp)), List.contains_iff_mem.mp (hmem l.irqDisable (by simp))⟩

end Sys2Proof.Proofs
end

section
/-! The statements about page crossing and PS after reset, each assembled from the facts above. -/

namespace Sys2Proof.Proofs

open Sys2Proof.Machine

/-- Settles O25: the default by the model's parameters, and each rule by its own law. -/
theorem pageCrossingPredicate : Obligations.PageCrossingPredicate := by
  unfold Obligations.PageCrossingPredicate
  exact ⟨rfl, fun base idx => ⟨pageCrossed_differs_iff base idx, pageCrossed_nonzero_iff base idx⟩⟩

/-- Settles O52: PS after reset holds the two flags' bits wherever they lie, and an admitted placing puts neither at bit 1 or
bit 7. -/
theorem resetPsForEveryLayout : Obligations.ResetPsForEveryLayout := by
  unfold Obligations.ResetPsForEveryLayout
  intro l hvalid k _
  obtain ⟨hunused, hirq⟩ := resetFlags_mem_of_psLayoutValid hvalid
  obtain ⟨hu, hu1, hu7⟩ := unnumbered_position hunused
  obtain ⟨hi, hi1, hi7⟩ := unnumbered_position hirq
  have hbit := psReset_getLsbD hu hi
  refine ⟨hbit k, ?_, ?_⟩
  · rw [hbit 1, beq_false_of_ne hu1, beq_false_of_ne hi1, Bool.or_false]
  · rw [hbit 7, beq_false_of_ne hu7, beq_false_of_ne hi7, Bool.or_false]

end Sys2Proof.Proofs
end
